-- ==== Sys2Proof/Word.lean ====
section
/-! DEFINITION. The word types: bytes, the four register widths of an instance (00_scope.md R5), and the two
byte orders a serialised word can have. -/

namespace Sys2Proof

/-- A `bits_8` value (00_scope.md R12). -/
abbrev Byte := BitVec 8

/-- The register width `W` of an instance: one of four values, fixed per instance (00_scope.md R5). -/
inductive Width where
  | w16
  | w32
  | w64
  | w128
  deriving DecidableEq, Repr, Inhabited

/-- `W` as a number of bits. -/
def Width.bits : Width → Nat
  | .w16 => 16
  | .w32 => 32
  | .w64 => 64
  | .w128 => 128

/-- A `bits_W` value of an instance of width `w` (00_scope.md R9). -/
abbrev Word (w : Width) := BitVec w.bits

/-- Which end of a word comes first when it is serialised (00_scope.md R6; 40_datapath_functions.md R97). -/
inductive ByteEnd where
  | big
  | little
  deriving DecidableEq, Repr, Inhabited

end Sys2Proof
end

