-- ==== Sys2Proof/Config.lean ====
section
/-! DEFINITION. What one instance of the core fixes (00_scope.md R5, R6) and the values the spec leaves open
(10_state.md R35). The open ones are constants with no body: nothing can be proved about which value they are. -/

namespace Sys2Proof

/-- The width of the instance that `State.reset` describes.
DESIGN CHOICE (log 2): the spec fixes one of four per instance; the instance travels in State, and every
definition and every statement about a state covers all four. -/
def Config.width : Width := .w32

/-- `NATIVE_ORDER` of the instance that `State.reset` describes: OPEN (00_scope.md R6; 92_eei_decisions.md D11).
DESIGN CHOICE (log 3): a constant with no body. -/
opaque Config.nativeOrder : ByteEnd

/-- The `W`-bit registers that hold no specified value after a reset (10_state.md R35). -/
inductive Config.WordRegister where
  | poly
  | init
  | xorout
  | residue
  | reg
  deriving DecidableEq, Repr

/-- What a `W`-bit register holds after reset event number `n`: unspecified (10_state.md R35), so a free value.
DESIGN CHOICE (log 4). -/
opaque Config.unspecifiedWord (W : Nat) (r : Config.WordRegister) (n : Nat) : BitVec W

/-- What `MODE` holds after reset event number `n`: unspecified (10_state.md R35), so a free value.
DESIGN CHOICE (log 4). -/
opaque Config.unspecifiedMode (n : Nat) : Byte

end Sys2Proof
end

