-- ==== Sys2Proof/Syntax.lean ====
section
/-! DEFINITION. The commands, their formats, the responses and the error causes as data (30_encoding.md;
60_exceptions.md R181), and the composite operations (30_encoding.md R74). -/

namespace Sys2Proof

/-- The `ORDER` field: the byte order of the serialised checksum (10_state.md R25). -/
inductive Order where
  | big
  | little
  | native
  deriving DecidableEq, Repr, Inhabited

/-- The four command formats (30_encoding.md R61). -/
inductive Format where
  | n
  | b
  | s
  | su
  deriving DecidableEq, Repr

/-- The nine opcodes (30_encoding.md R68). -/
inductive Opcode where
  | config
  | configu
  | init
  | update
  | rdsum
  | rdsumb
  | verify
  | rdtable
  | rdres
  deriving DecidableEq, Repr

/-- The commands, one constructor per row of opcode_table.json. A `W`-bit operand has the width of the instance
the command is written for, which the two construction commands therefore carry; `mode` is the byte of
30_encoding.md R67. -/
inductive Instr where
  /-- `CONFIG`, the validating constructor (41_table_generator.md R120). -/
  | config (w : Width) (mode : Byte) (poly init xorout : Word w)
  /-- `CONFIGU`, the unchecked constructor (41_table_generator.md R122). -/
  | configu (w : Width) (mode : Byte) (poly init xorout residue : Word w)
  /-- `INIT`, re-initialise the accumulator (42_accumulator.md R146). -/
  | init
  /-- `UPDATE`, fold one message byte (42_accumulator.md R148). -/
  | update (imm8 : Byte)
  /-- `RDSUM`, the current checksum as a number (42_accumulator.md R150). -/
  | rdsum
  /-- `RDSUMB`, the current checksum as bytes (42_accumulator.md R154). -/
  | rdsumb
  /-- `VERIFY`, the residue check (42_accumulator.md R156). -/
  | verify
  /-- `RDTABLE`, read one table entry (41_table_generator.md R124). -/
  | rdtable (imm8 : Byte)
  /-- `RDRES`, read the residue field (41_table_generator.md R126). -/
  | rdres
  deriving DecidableEq, Repr

/-- The four error causes (60_exceptions.md R181). -/
inductive ErrorCause where
  | illegalOpcode
  | badLength
  | reservedField
  | notConfigured
  deriving DecidableEq, Repr

/-- The responses of an instance of register width `W` (30_encoding.md R70). -/
inductive Response (W : Nat) where
  | ack
  | val (v : BitVec W)
  | bytes (s : List Byte)
  | bool (b : Bool)
  | err (cause : ErrorCause)
  deriving DecidableEq, Repr

/-- The composite operations, sequences of commands the host issues (30_encoding.md R74). -/
inductive Composite where
  | updatem (m : List Byte)
  | checksum (m : List Byte)
  | checksumb (m : List Byte)
  | verifym (m : List Byte)
  deriving DecidableEq, Repr

end Sys2Proof
end

