-- ==== Sys2Proof/Machine/Operands.lean ====
section
/-! DEFINITION. The operand forms: the transport of `W`-bit values as bytes (30_encoding.md R64), and the fields of
the mode byte, which is both an operand (30_encoding.md R67) and the `MODE` register (10_state.md R25). -/

namespace Sys2Proof

/-- `NB = W/8`, the bytes of a `W`-bit value (00_scope.md R7). -/
def numBytes (W : Nat) : Nat := W / 8

/-- Bits `8*k+7 : 8*k` of a value. -/
def byteAt {W : Nat} (v : BitVec W) (k : Nat) : Byte := v.extractLsb' (8 * k) 8

/-- The number a byte string carries, most significant byte first (30_encoding.md R64). -/
def bytesValue (o : List Byte) : Nat := o.foldl (fun acc b => acc * 256 + b.toNat) 0

/-- Assembles a `W`-bit operand from its bytes, most significant byte first (30_encoding.md R64). -/
def wordOfBytes (W : Nat) (o : List Byte) : BitVec W := BitVec.ofNat W (bytesValue o)

/-- The `NB` bytes of a `W`-bit value, most significant byte first (30_encoding.md R64). -/
def wordBytes {W : Nat} (v : BitVec W) : List Byte :=
  (List.range (numBytes W)).map fun k => byteAt v (numBytes W - 1 - k)

/-- `REFIN`, bit 0 of the mode byte (10_state.md R25). -/
def modeRefin (mode : Byte) : Bool := mode.getLsbD 0

/-- `REFOUT`, bit 1 of the mode byte (10_state.md R25). -/
def modeRefout (mode : Byte) : Bool := mode.getLsbD 1

/-- The meaning of the two bits of `ORDER`; 3 is reserved (10_state.md R25). -/
def orderOfBits (o : BitVec 2) : Option Order :=
  match o.toNat with
  | 0 => some .big
  | 1 => some .little
  | 2 => some .native
  | _ => none

/-- `ORDER`, bits 3:2 of the mode byte (10_state.md R25). -/
def modeOrder (mode : Byte) : Option Order := orderOfBits (mode.extractLsb' 2 2)

/-- A mode byte is legal when bits 7:4 are zero and `order` is not 3 (30_encoding.md R67). -/
def modeLegal (mode : Byte) : Bool := mode.extractLsb' 4 4 == 0 && (modeOrder mode).isSome

/-- The three fields a legal mode byte holds. -/
structure ModeFields where
  refin : Bool
  refout : Bool
  order : Order
  deriving DecidableEq, Repr

/-- The fields of a mode byte; none for a reserved encoding (60_exceptions.md R183). -/
def modeFields (mode : Byte) : Option ModeFields :=
  if modeLegal mode then
    (modeOrder mode).map fun o => ⟨modeRefin mode, modeRefout mode, o⟩
  else none

/-- The number of the `order` field (30_encoding.md R67). -/
def orderCode : Order → Nat
  | .big => 0
  | .little => 1
  | .native => 2

/-- Packs the three fields into a mode byte (30_encoding.md R67). -/
def modePack (f : ModeFields) : Byte :=
  BitVec.ofNat 8 (f.refin.toNat + 2 * f.refout.toNat + 4 * orderCode f.order)

end Sys2Proof
end

