-- ==== Sys2Proof/WellFormed.lean ====
section
/-! DEFINITION. Which commands an instance of width `w` can be sent: a construction command has operands of the
instance's own width (30_encoding.md R61, R72) and a legal mode byte (30_encoding.md R67). -/

namespace Sys2Proof

/-- The instruction is one that an instance of width `w` decodes to. -/
def wellFormed (w : Width) : Instr → Bool
  | .config w' mode _ _ _ => decide (w' = w) && modeLegal mode
  | .configu w' mode _ _ _ _ => decide (w' = w) && modeLegal mode
  | .init => true
  | .update _ => true
  | .rdsum => true
  | .rdsumb => true
  | .verify => true
  | .rdtable _ => true
  | .rdres => true

end Sys2Proof
end

