-- ==== Sys2Proof/Decode.lean ====
section
/-! DEFINITION. Decoding a command string, total on any bytes and rejecting by the error causes of the spec
(30_encoding.md R60 to R71), and the encoder. -/

namespace Sys2Proof

/-- The opcode map read from the byte `c[0]`; the other 247 values are illegal (30_encoding.md R68, R71). -/
def opcodeOfByte (b : Byte) : Option Opcode :=
  match b.toNat with
  | 0x01 => some .config
  | 0x02 => some .configu
  | 0x10 => some .init
  | 0x11 => some .update
  | 0x20 => some .rdsum
  | 0x21 => some .rdsumb
  | 0x22 => some .verify
  | 0x30 => some .rdtable
  | 0x31 => some .rdres
  | _ => none

/-- The opcode byte of each command (30_encoding.md R68). -/
def opcodeByte : Opcode → Byte
  | .config => 0x01
  | .configu => 0x02
  | .init => 0x10
  | .update => 0x11
  | .rdsum => 0x20
  | .rdsumb => 0x21
  | .verify => 0x22
  | .rdtable => 0x30
  | .rdres => 0x31

/-- The format of each command (30_encoding.md R68). -/
def opcodeFormat : Opcode → Format
  | .config => .s
  | .configu => .su
  | .init => .n
  | .update => .b
  | .rdsum => .n
  | .rdsumb => .n
  | .verify => .n
  | .rdtable => .b
  | .rdres => .n

/-- The length in bytes a command of a format must have (30_encoding.md R61). -/
def formatLength (W : Nat) : Format → Nat
  | .n => 1
  | .b => 2
  | .s => 2 + 3 * numBytes W
  | .su => 2 + 4 * numBytes W

/-- The length the opcode and `W` together fix (30_encoding.md R61, R72). -/
def opcodeLength (W : Nat) (op : Opcode) : Nat := formatLength W (opcodeFormat op)

/-- `c[k]`; decoding asks for it only where the length test has passed. -/
def cmdByte (c : List Byte) (k : Nat) : Byte := c.getD k 0

/-- The `k`-th `W`-bit operand: `NB` bytes from offset `2 + k*NB` (30_encoding.md R65, R66). -/
def cmdWord (W : Nat) (c : List Byte) (k : Nat) : BitVec W :=
  wordOfBytes W ((c.drop (2 + k * numBytes W)).take (numBytes W))

/-- The operands of a command whose opcode and length have been tested; a reserved mode is refused
(30_encoding.md R63 to R67, R69). -/
def decodeOperands (w : Width) (op : Opcode) (c : List Byte) : Except ErrorCause Instr :=
  match op with
  | .config =>
    if modeLegal (cmdByte c 1) then
      .ok (.config w (cmdByte c 1) (cmdWord w.bits c 0) (cmdWord w.bits c 1) (cmdWord w.bits c 2))
    else .error .reservedField
  | .configu =>
    if modeLegal (cmdByte c 1) then
      .ok (.configu w (cmdByte c 1) (cmdWord w.bits c 0) (cmdWord w.bits c 1) (cmdWord w.bits c 2)
        (cmdWord w.bits c 3))
    else .error .reservedField
  | .init => .ok .init
  | .update => .ok (.update (cmdByte c 1))
  | .rdsum => .ok .rdsum
  | .rdsumb => .ok .rdsumb
  | .verify => .ok .verify
  | .rdtable => .ok (.rdtable (cmdByte c 1))
  | .rdres => .ok .rdres

/-- Decoding, in the order of 30_encoding.md R69; its last test reads state and belongs to execution. -/
def decode (w : Width) (c : List Byte) : Except ErrorCause Instr :=
  match c with
  | [] => .error .badLength
  | b :: _ =>
    match opcodeOfByte b with
    | none => .error .illegalOpcode
    | some op =>
      if c.length = opcodeLength w.bits op then decodeOperands w op c else .error .badLength

/-- The opcode of a command. -/
def instrOpcode : Instr → Opcode
  | .config _ _ _ _ _ => .config
  | .configu _ _ _ _ _ _ => .configu
  | .init => .init
  | .update _ => .update
  | .rdsum => .rdsum
  | .rdsumb => .rdsumb
  | .verify => .verify
  | .rdtable _ => .rdtable
  | .rdres => .rdres

/-- The operand bytes of a command, after its opcode (30_encoding.md R62 to R66). -/
def encodeOperands : Instr → List Byte
  | .config _ mode poly init xorout => mode :: (wordBytes poly ++ wordBytes init ++ wordBytes xorout)
  | .configu _ mode poly init xorout residue =>
    mode :: (wordBytes poly ++ wordBytes init ++ wordBytes xorout ++ wordBytes residue)
  | .init => []
  | .update imm8 => [imm8]
  | .rdsum => []
  | .rdsumb => []
  | .verify => []
  | .rdtable imm8 => [imm8]
  | .rdres => []

/-- The command string of an instruction (30_encoding.md R61 to R67). -/
def encode (i : Instr) : List Byte := opcodeByte (instrOpcode i) :: encodeOperands i

/-- The expansion of a composite operation into commands (30_encoding.md R74). -/
def expandComposite : Composite → List Instr
  | .updatem m => m.map .update
  | .checksum m => .init :: (m.map .update ++ [.rdsum])
  | .checksumb m => .init :: (m.map .update ++ [.rdsumb])
  | .verifym m => .init :: (m.map .update ++ [.verify])

/-- How many bytes a table word stands for: what `nbits` gives, filled up with zero operand bytes to the
length of the command that the first byte selects (log 14). -/
def tableWordLength (w : Width) (nbits v : Nat) : Nat :=
  match opcodeOfByte (BitVec.ofNat 8 v) with
  | some op => max (nbits / 8) (opcodeLength w.bits op)
  | none => max (nbits / 8) 1

/-- The command string that a word of opcode_table.json's numbering stands for: `c[0]` is bits 7:0, `c[1]`
is bits 15:8 and so on (log 14). -/
def tableWordBytes (w : Width) (nbits v : Nat) : List Byte :=
  (List.range (tableWordLength w nbits v)).map fun k => BitVec.ofNat 8 (v >>> (8 * k))

/-- What the decoder of the `State.reset` instance reads from a table word. -/
def decodeTableWord (nbits w : Nat) : Option Instr :=
  match decode Config.width (tableWordBytes Config.width nbits w) with
  | .ok i => some i
  | .error _ => none

end Sys2Proof
end

