-- ==== Sys2Proof/Machine/State.lean ====
section
/-! DEFINITION. The state of one instance of the core (10_state.md R20 to R37), the reasons a step can stop, and the
state after reset (10_state.md R35; 70_reset_and_hazards.md R200). -/

namespace Sys2Proof.Machine

/-- The table memory: (index, entry) pairs of the table space (20_memory.md R40). An index that is not listed
holds no value (10_state.md R35; log 5). -/
abbrev Memory (W : Nat) := List (Nat × BitVec W)

/-- The engine of one instance: the configuration registers, the table memory and the accumulator
(10_state.md R20; 00_scope.md R17). -/
structure Engine (W : Nat) where
  /-- `POLY` (10_state.md R21). -/
  poly : BitVec W
  /-- `INIT` (10_state.md R22). -/
  init : BitVec W
  /-- `XOROUT` (10_state.md R23). -/
  xorout : BitVec W
  /-- `RESIDUE` (10_state.md R24). -/
  residue : BitVec W
  /-- `MODE`: `REFIN` bit 0, `REFOUT` bit 1, `ORDER` bits 3:2, bits 7:4 zero (10_state.md R25). -/
  mode : Byte
  /-- `TABLE` (10_state.md R28). -/
  table : Memory W
  /-- `REG` (10_state.md R29). -/
  reg : BitVec W
  deriving DecidableEq, Repr

/-- What the host can do to the core between two commands. -/
inductive HostInput where
  /-- Present a command, a finite byte string (30_encoding.md R60). -/
  | command (c : List Byte)
  /-- The reset event (70_reset_and_hazards.md R200). -/
  | reset
  deriving DecidableEq, Repr

/-- One instance of the core and its two ends of the command interface. -/
structure State where
  /-- `W`, an instance parameter: no step changes it (00_scope.md R5; log 1). -/
  width : Width
  /-- `NATIVE_ORDER`, an instance parameter: no step changes it (00_scope.md R6; log 1). -/
  nativeOrder : ByteEnd
  /-- The registers and the table. -/
  engine : Engine width.bits
  /-- `CONFIGURED` (10_state.md R30). -/
  configured : Bool
  /-- The model's own: what the host presents and the core has not taken yet, next first (log 7). -/
  inputs : List HostInput
  /-- The model's own: the response byte strings so far, oldest first (30_encoding.md R70; log 9). -/
  responses : List (List Byte)
  /-- The model's own: how many reset events have been taken, which numbers the free values (log 6). -/
  resets : Nat
  deriving DecidableEq, Repr

/-- Why the machine stops. Neither reason can arise in a state that satisfies `State.Inv`. -/
inductive Fault where
  /-- Raised by `UPDATE` and `RDTABLE` on a table entry that holds no value (10_state.md R35, "a fault on read").
  Safe: no run reaches it, since a configuration writes all 256 entries (log 5). -/
  | tableUnwritten (index : Nat)
  /-- Raised by `RDSUMB` when `MODE` holds the reserved order 3, which has no meaning and is never stored
  (60_exceptions.md R183). Safe: no run reaches it (log 13). -/
  | reservedOrder
  deriving DecidableEq, Repr

/-- Why the model gives an instruction no meaning. -/
inductive Refusal where
  /-- An instruction whose meaning is not written yet, raised by its arm of `exec`. Safe: nothing is claimed of it. -/
  | notModelled (mnemonic : String)
  deriving DecidableEq, Repr

/-- The outcome of a step or of an instruction. -/
abbrev Result := Host.Outcome State Fault Refusal

/-- The engine after reset event number `n`: every register unspecified, the table without values
(10_state.md R35; log 4, log 5). -/
def Engine.unspecified (W n : Nat) : Engine W where
  poly := Config.unspecifiedWord W .poly n
  init := Config.unspecifiedWord W .init n
  xorout := Config.unspecifiedWord W .xorout n
  residue := Config.unspecifiedWord W .residue n
  mode := Config.unspecifiedMode n
  table := []
  reg := Config.unspecifiedWord W .reg n

/-- The state right after reset of an instance of width `w` whose `NATIVE_ORDER` is `e` (10_state.md R35). -/
def State.resetOf (w : Width) (e : ByteEnd) : State where
  width := w
  nativeOrder := e
  engine := Engine.unspecified w.bits 0
  configured := false
  inputs := []
  responses := []
  resets := 0

/-- The state right after reset of the instance that Config describes (log 2, log 3). -/
def State.reset : State := State.resetOf Config.width Config.nativeOrder

end Sys2Proof.Machine
end

