-- ==== Sys2Proof/Machine/Datapath.lean ====
section
/-! DEFINITION. The combinational functions of the initialise/finalise pipeline and the serialisation
(40_datapath_functions.md). All are pure and total (R90) and hold at every width (00_scope.md R8). -/

namespace Sys2Proof.Machine

/-- `rev_N`: bit `i` of the result is bit `N-1-i` of `v` (00_scope.md R11; 40_datapath_functions.md R91). -/
def rev {N : Nat} (v : BitVec N) : BitVec N := v.reverse

/-- The initial register (40_datapath_functions.md R92). -/
def initializeRegister {W : Nat} (init : BitVec W) (refin : Bool) : BitVec W :=
  if refin then rev init else init

/-- Reversal when exactly one of the two flags is set (40_datapath_functions.md R93). -/
def reflectConditionally {W : Nat} (refin refout : Bool) (value : BitVec W) : BitVec W :=
  if refin ^^ refout then rev value else value

/-- The checksum of a register value: conditional reflection, then XOR-out (40_datapath_functions.md R95). -/
def finalize {W : Nat} (refin refout : Bool) (xorout register : BitVec W) : BitVec W :=
  reflectConditionally refin refout register ^^^ xorout

/-- `ORDER` with `Native` resolved by the instance parameter (40_datapath_functions.md R96). -/
def effective (nativeOrder : ByteEnd) : Order → ByteEnd
  | .big => .big
  | .little => .little
  | .native => nativeOrder

/-- The `NB` bytes of a value from the given end (40_datapath_functions.md R97). -/
def bytesFrom {W : Nat} (v : BitVec W) : ByteEnd → List Byte
  | .big => (List.range (numBytes W)).map fun k => byteAt v (numBytes W - 1 - k)
  | .little => (List.range (numBytes W)).map fun k => byteAt v k

/-- Serialisation in the algorithm's byte order (40_datapath_functions.md R97). -/
def toEndianBytes {W : Nat} (nativeOrder : ByteEnd) (v : BitVec W) (order : Order) : List Byte :=
  bytesFrom v (effective nativeOrder order)

end Sys2Proof.Machine
end

