-- ==== Sys2Proof/Machine/Fold.lean ====
section
/-! DEFINITION. The fold of message bytes into the register (42_accumulator.md R140 to R143). -/

namespace Sys2Proof.Machine

/-- The table index of a fold step: the low byte of the register XOR the byte when `refin`, the top byte
otherwise (42_accumulator.md R141). -/
def foldIndex {W : Nat} (refin : Bool) (register : BitVec W) (byte : Byte) : Byte :=
  if refin then (register ^^^ byte.setWidth W).setWidth 8
  else ((register >>> (W - 8)) ^^^ byte.setWidth W).setWidth 8

/-- The register after a fold step that read `entry`; the left shift is within `W` bits
(42_accumulator.md R141). -/
def foldStep {W : Nat} (refin : Bool) (register entry : BitVec W) : BitVec W :=
  if refin then entry ^^^ (register >>> 8) else entry ^^^ (register <<< 8)

/-- One byte folded into the register through the table `T` (42_accumulator.md R141). -/
def foldByte {W : Nat} (refin : Bool) (register : BitVec W) (byte : Byte) (T : Byte → BitVec W) : BitVec W :=
  foldStep refin register (T (foldIndex refin register byte))

/-- A byte sequence folded in order (42_accumulator.md R143). -/
def foldBytes {W : Nat} (refin : Bool) (register : BitVec W) (bytes : List Byte) (T : Byte → BitVec W) :
    BitVec W :=
  match bytes with
  | [] => register
  | b :: s => foldBytes refin (foldByte refin register b T) s T

end Sys2Proof.Machine
end

