-- ==== Sys2Proof/Machine/TableGen.lean ====
section
/-! DEFINITION. The table generator and the residue derivation (41_table_generator.md R110 to R116). -/

namespace Sys2Proof.Machine

/-- The LSB-first shift step against the reflected polynomial `rp` (41_table_generator.md R111). -/
def shiftStep {W : Nat} (c rp : BitVec W) : BitVec W :=
  if c.getLsbD 0 then (c >>> 1) ^^^ rp else c >>> 1

/-- `n` shift steps (41_table_generator.md R112). -/
def shiftSteps {W : Nat} : Nat → BitVec W → BitVec W → BitVec W
  | 0, c, _ => c
  | n + 1, c, rp => shiftSteps n (shiftStep c rp) rp

/-- Entry `i` of `derive_table(poly, refin)`: the byte value is reversed within 8 bits and then widened, the
entry is reversed back across `W` bits (41_table_generator.md R112; 90_conflicts.md C10). -/
def tableEntry {W : Nat} (poly : BitVec W) (refin : Bool) (i : Byte) : BitVec W :=
  if refin then shiftSteps 8 (i.setWidth W) (rev poly)
  else rev (shiftSteps 8 ((rev i).setWidth W) (rev poly))

/-- The residue constant: the empty message's checksum bytes folded from the initialised register, then the
conditional reflection without XOR-out (41_table_generator.md R116). -/
def deriveResidue {W : Nat} (nativeOrder : ByteEnd) (order : Order) (poly init : BitVec W) (refin refout : Bool)
    (xorout : BitVec W) : BitVec W :=
  let r0 := initializeRegister init refin
  let c := finalize refin refout xorout r0
  let s := toEndianBytes nativeOrder c order
  reflectConditionally refin refout (foldBytes refin r0 s (tableEntry poly refin))

end Sys2Proof.Machine
end

