-- ==== Sys2Proof/Machine/Ops.lean ====
section
/-! DEFINITION. The shared operations over the state: the table memory, responses, errors (taking one and going on
after one), the host's inputs, construction of an engine. -/

namespace Sys2Proof.Machine

/-- The entry listed for an index, if any. -/
def Memory.lookup {W : Nat} : Memory W → Nat → Option (BitVec W)
  | [], _ => none
  | (j, v) :: rest, i => if j = i then some v else Memory.lookup rest i

/-- `TableRead(i)` (20_memory.md R41); none where the entry holds no value. -/
def Memory.read {W : Nat} (m : Memory W) (i : Byte) : Option (BitVec W) := m.lookup i.toNat

/-- Lists an entry at its place in the rising order of indexes. -/
def Memory.insert {W : Nat} : Memory W → Nat → BitVec W → Memory W
  | [], i, v => [(i, v)]
  | (j, u) :: rest, i, v =>
    if i < j then (i, v) :: (j, u) :: rest
    else if i = j then (i, v) :: rest
    else (j, u) :: Memory.insert rest i v

/-- `TableWrite(i, v)`: one whole entry (20_memory.md R41). -/
def Memory.write {W : Nat} (m : Memory W) (i : Byte) (v : BitVec W) : Memory W := m.insert i.toNat v

/-- The canonical form: indexes strictly rising and inside the table space (20_memory.md R40). No entry can
equal what an unlisted index reads as, since that is no value. -/
def Memory.wf {W : Nat} : Memory W → Bool
  | [] => true
  | (j, _) :: rest =>
    decide (j < 256) && (match rest with | [] => true | (k, _) :: _ => decide (j < k)) && Memory.wf rest

/-- The table writes of a configuration command, one `TableWrite(i, T[i])` for each `i` in `0 .. 255`
(41_table_generator.md R112, R115). The writes go to distinct entries inside one atomic command (00_scope.md R14),
so their order cannot be observed; here the highest index is written first. (Irreducible only so that no elaboration
unrolls the 256 writes; the kernel evaluates it.) -/
@[irreducible] def Memory.fill {W : Nat} (m : Memory W) (T : Byte → BitVec W) : Memory W :=
  (List.range 256).foldr (fun i acc => acc.write (BitVec.ofNat 8 i) (T (BitVec.ofNat 8 i))) m

/-- The number of an error cause (60_exceptions.md R181). -/
def errorCode : ErrorCause → Nat
  | .illegalOpcode => 1
  | .badLength => 2
  | .reservedField => 3
  | .notConfigured => 4

/-- The byte string of a response (30_encoding.md R70). -/
def encodeResponse {W : Nat} : Response W → List Byte
  | .ack => [0x00]
  | .val v => 0x01 :: wordBytes v
  | .bytes s => 0x02 :: s
  | .bool b => [0x03, if b then 0x01 else 0x00]
  | .err cause => [BitVec.ofNat 8 (0x80 + errorCode cause)]

/-- `respond X`: sends the one response of a command (00_scope.md R13; 30_encoding.md R70). -/
def respond {W : Nat} (r : Response W) (s : State) : State :=
  { s with responses := s.responses ++ [encodeResponse r] }

/-- TAKING AN ERROR, the whole of it: respond `ERR(cause)`, change nothing (60_exceptions.md R182, R191). -/
def raiseError (cause : ErrorCause) (s : State) : State := respond (W := s.width.bits) (.err cause) s

/-- GOING ON AFTER AN ERROR, or after any command: the next input of the host is taken up, with nothing else
changed (60_exceptions.md R191). None when the host presents nothing. -/
def takeInput (s : State) : Option (HostInput × State) :=
  match s.inputs with
  | [] => none
  | x :: rest => some (x, { s with inputs := rest })

/-- The reset event: `CONFIGURED` becomes 0 and every other piece of state unspecified; the instance parameters
stay (70_reset_and_hazards.md R200, R201). -/
def takeReset (s : State) : State :=
  { s with
    engine := Engine.unspecified s.width.bits (s.resets + 1)
    configured := false
    resets := s.resets + 1 }

/-- The host presents one more command, to be taken before those it presents already. -/
def present (c : List Byte) (s : State) : State := { s with inputs := .command c :: s.inputs }

/-- `REG <- v`. -/
def State.withReg (s : State) (v : BitVec s.width.bits) : State := { s with engine := { s.engine with reg := v } }

/-- Runs `k` on the entry that `TableRead(i)` returns; a read of an entry without a value faults (log 5). -/
def readTable (s : State) (i : Byte) (k : BitVec s.width.bits → Result) : Result :=
  match s.engine.table.read i with
  | some v => k v
  | none => .fault (.tableUnwritten i.toNat)

/-- The engine a construction command leaves, every register and all 256 entries replaced in one step
(41_table_generator.md R120, R122; 10_state.md R26). -/
def newEngine {W : Nat} (table : Memory W) (mode : Byte) (poly init xorout residue : BitVec W) : Engine W where
  poly := poly
  init := init
  xorout := xorout
  residue := residue
  mode := mode
  table := table.fill (tableEntry poly (modeRefin mode))
  reg := initializeRegister init (modeRefin mode)

/-- `REFIN` of the `MODE` register. -/
def Engine.refin {W : Nat} (e : Engine W) : Bool := modeRefin e.mode

/-- `REFOUT` of the `MODE` register. -/
def Engine.refout {W : Nat} (e : Engine W) : Bool := modeRefout e.mode

/-- The checksum of the accumulator, `finalize(REFIN, REFOUT, XOROUT, REG)` (42_accumulator.md R150). -/
def Engine.checksum {W : Nat} (e : Engine W) : BitVec W := finalize e.refin e.refout e.xorout e.reg

/-- The residue check of the accumulator (42_accumulator.md R156). -/
def Engine.verifies {W : Nat} (e : Engine W) : Bool := reflectConditionally e.refin e.refout e.reg == e.residue

end Sys2Proof.Machine
end

