-- ==== Sys2Proof/Machine/Flags.lean ====
section
/-! DEFINITION. `CONFIGURED`, the only flag (10_state.md R30): its test and its setting. -/

namespace Sys2Proof.Machine

/-- The configured test: while `CONFIGURED` is 0 the command is refused with `NOT_CONFIGURED` and changes nothing
(60_exceptions.md R184; 30_encoding.md R69). -/
def whenConfigured (s : State) (k : Result) : Result :=
  if s.configured then k else .next (raiseError .notConfigured s)

/-- `CONFIGURED <- 1`, together with the engine that a construction command leaves. -/
def installEngine (s : State) (e : Engine s.width.bits) : State := { s with engine := e, configured := true }

end Sys2Proof.Machine
end

