-- ==== Sys2Proof/Machine/Accumulate.lean ====
section
/-! DEFINITION. The accumulator commands `INIT` and `UPDATE` (42_accumulator.md section 2). -/

namespace Sys2Proof.Machine

/-- `INIT` (42_accumulator.md R146). -/
def execInit (s : State) : Result :=
  whenConfigured s
    (.next (respond (W := s.width.bits) .ack (s.withReg (initializeRegister s.engine.init s.engine.refin))))

/-- `UPDATE` (42_accumulator.md R148): one table read at the index of R141. -/
def execUpdate (imm8 : Byte) (s : State) : Result :=
  whenConfigured s
    (readTable s (foldIndex s.engine.refin s.engine.reg imm8) fun entry =>
      .next (respond (W := s.width.bits) .ack (s.withReg (foldStep s.engine.refin s.engine.reg entry))))

end Sys2Proof.Machine
end

