-- ==== Sys2Proof/Machine/Construct.lean ====
section
/-! DEFINITION. The construction commands `CONFIG` and `CONFIGU` (41_table_generator.md section 3). -/

namespace Sys2Proof.Machine

/-- What the two constructors share: all registers, the table and `CONFIGURED` are written in one step, and `ACK`
is the response; only where `residue` comes from differs. Decoding has tested length and mode; a term that no string
decodes to is answered as the string of its bytes would be (60_exceptions.md R186; log 12). -/
def construct (w : Width) (mode : Byte) (poly init xorout : Word w) (residue : ModeFields → Word w) (s : State) :
    Result :=
  if w = s.width then
    match modeFields mode with
    | some f =>
      .next (respond (W := s.width.bits) .ack
        (installEngine s (newEngine s.engine.table mode (poly.setWidth _) (init.setWidth _) (xorout.setWidth _)
          ((residue f).setWidth _))))
    | none => .next (raiseError .reservedField s)
  else .next (raiseError .badLength s)

/-- `CONFIG` (41_table_generator.md R120): the residue is derived. -/
def execConfig (w : Width) (mode : Byte) (poly init xorout : Word w) (s : State) : Result :=
  construct w mode poly init xorout
    (fun f => deriveResidue s.nativeOrder f.order poly init f.refin f.refout xorout) s

/-- `CONFIGU` (41_table_generator.md R122): the residue is the one given, not checked. -/
def execConfigu (w : Width) (mode : Byte) (poly init xorout residue : Word w) (s : State) : Result :=
  construct w mode poly init xorout (fun _ => residue) s

end Sys2Proof.Machine
end

