-- ==== Sys2Proof/Machine/Finalise.lean ====
section
/-! DEFINITION. The finalise commands `RDSUM`, `RDSUMB` and `VERIFY` (42_accumulator.md section 2). -/

namespace Sys2Proof.Machine

/-- `RDSUM` (42_accumulator.md R150). -/
def execRdsum (s : State) : Result :=
  whenConfigured s (.next (respond (.val s.engine.checksum) s))

/-- `RDSUMB` (42_accumulator.md R154). -/
def execRdsumb (s : State) : Result :=
  whenConfigured s
    (match modeOrder s.engine.mode with
    | some order =>
      .next (respond (W := s.width.bits) (.bytes (toEndianBytes s.nativeOrder s.engine.checksum order)) s)
    | none => .fault .reservedOrder)

/-- `VERIFY` (42_accumulator.md R156). -/
def execVerify (s : State) : Result :=
  whenConfigured s (.next (respond (W := s.width.bits) (.bool s.engine.verifies) s))

end Sys2Proof.Machine
end

