-- ==== Sys2Proof/Machine/ReadBack.lean ====
section
/-! DEFINITION. The read-back commands `RDTABLE` and `RDRES` (41_table_generator.md section 4). -/

namespace Sys2Proof.Machine

/-- `RDTABLE` (41_table_generator.md R124). -/
def execRdtable (imm8 : Byte) (s : State) : Result :=
  whenConfigured s (readTable s imm8 fun v => .next (respond (.val v) s))

/-- `RDRES` (41_table_generator.md R126). -/
def execRdres (s : State) : Result :=
  whenConfigured s (.next (respond (.val s.engine.residue) s))

end Sys2Proof.Machine
end

