-- ==== Sys2Proof/Machine/Dispatch.lean ====
section
/-! DEFINITION. The meaning of each command (30_encoding.md R68). -/

namespace Sys2Proof.Machine

def exec (i : Instr) (s : State) : Host.Outcome State Fault Refusal :=
  match i with
  | .config w mode poly init xorout => Sys2Proof.Machine.execConfig w mode poly init xorout s
  | .configu w mode poly init xorout residue => Sys2Proof.Machine.execConfigu w mode poly init xorout residue s
  | .init => Sys2Proof.Machine.execInit s
  | .update imm8 => Sys2Proof.Machine.execUpdate imm8 s
  | .rdsum => Sys2Proof.Machine.execRdsum s
  | .rdsumb => Sys2Proof.Machine.execRdsumb s
  | .verify => Sys2Proof.Machine.execVerify s
  | .rdtable imm8 => Sys2Proof.Machine.execRdtable imm8 s
  | .rdres => Sys2Proof.Machine.execRdres s

end Sys2Proof.Machine
end

