-- ==== Sys2Proof/Machine/Step.lean ====
section
/-! DEFINITION. One step: the core takes the next input of the host and completes it, response included
(00_scope.md R14); with no input it holds its state (60_exceptions.md R193; log 8). -/

namespace Sys2Proof.Machine

/-- One step of the core. -/
def step (s : State) : Host.Outcome State Fault Refusal :=
  match takeInput s with
  | none => .next s
  | some (.reset, s') => .next (takeReset s')
  | some (.command c, s') =>
    match decode s'.width c with
    | .ok i => exec i s'
    | .error cause => .next (raiseError cause s')

/-- The state in which the very next step takes the command that a table word stands for (log 7, log 14). -/
def State.withFetchWord (s : State) (nbits w : Nat) : State := present (tableWordBytes s.width nbits w) s

end Sys2Proof.Machine
end

