-- ==== Sys2Proof/Machine/Text.lean ====
section
/-! DEFINITION. The textual syntax of commands and responses (30_encoding.md R73). The machine does not read text;
this writes its commands and responses as the spec does. -/

namespace Sys2Proof.Machine

/-- One hexadecimal digit. -/
def hexDigit (d : Nat) : Char := if d < 10 then Char.ofNat (48 + d) else Char.ofNat (55 + d)

/-- A hexadecimal literal of `n` digits with its prefix `0x` (00_scope.md R9). -/
def hexText (n v : Nat) : String :=
  "0x" ++ String.ofList ((List.range n).map fun k => hexDigit (v / 16 ^ (n - 1 - k) % 16))

/-- A `W`-bit literal, `W/4` digits (00_scope.md R9). -/
def wordText {W : Nat} (v : BitVec W) : String := hexText (W / 4) v.toNat

/-- The name of an order. -/
def orderText : Order → String
  | .big => "Big"
  | .little => "Little"
  | .native => "Native"

/-- A flag, `0` or `1`. -/
def flagText (b : Bool) : String := if b then "1" else "0"

/-- The operands `order refin refout` of a construction command; none for a reserved mode, which the syntax cannot
write. -/
def modeText (mode : Byte) : Option String :=
  (modeFields mode).map fun f => orderText f.order ++ " " ++ flagText f.refin ++ " " ++ flagText f.refout

/-- A command line (30_encoding.md R73). -/
def instrText : Instr → Option String
  | .config _ mode poly init xorout =>
    (modeText mode).map fun m =>
      "CONFIG " ++ m ++ " " ++ wordText poly ++ " " ++ wordText init ++ " " ++ wordText xorout
  | .configu _ mode poly init xorout residue =>
    (modeText mode).map fun m =>
      "CONFIGU " ++ m ++ " " ++ wordText poly ++ " " ++ wordText init ++ " " ++ wordText xorout ++ " " ++
        wordText residue
  | .init => some "INIT"
  | .update imm8 => some ("UPDATE " ++ wordText imm8)
  | .rdsum => some "RDSUM"
  | .rdsumb => some "RDSUMB"
  | .verify => some "VERIFY"
  | .rdtable imm8 => some ("RDTABLE " ++ wordText imm8)
  | .rdres => some "RDRES"

/-- The name of an error cause (60_exceptions.md R181). -/
def causeText : ErrorCause → String
  | .illegalOpcode => "ILLEGAL_OPCODE"
  | .badLength => "BAD_LENGTH"
  | .reservedField => "RESERVED_FIELD"
  | .notConfigured => "NOT_CONFIGURED"

/-- What is written after `->` (30_encoding.md R73). -/
def responseText {W : Nat} : Response W → String
  | .ack => "ACK"
  | .val v => "VAL " ++ wordText v
  | .bytes s =>
    s.foldl (fun acc b => acc ++ " " ++ String.ofList [hexDigit (b.toNat / 16), hexDigit (b.toNat % 16)]) "BYTES"
  | .bool b => if b then "BOOL true" else "BOOL false"
  | .err cause => "ERR " ++ causeText cause

end Sys2Proof.Machine
end

