-- ==== Sys2Proof/Machine/Composite.lean ====
section
/-! DEFINITION. Running a sequence of commands, and the composite operations, which are such sequences
(30_encoding.md R74; 42_accumulator.md R160 to R164). -/

namespace Sys2Proof.Machine

/-- Commands executed one after the other, each complete before the next (00_scope.md R14). -/
def execAll : List Instr → State → Result
  | [], s => .next s
  | i :: rest, s =>
    match exec i s with
    | .next s' => execAll rest s'
    | .fault r => .fault r
    | .refused r => .refused r

/-- A composite operation: the meaning of its expansion; its response is that of its last command
(30_encoding.md R74). -/
def execComposite (c : Composite) (s : State) : Result := execAll (expandComposite c) s

end Sys2Proof.Machine
end

