-- ==== Sys2Proof/Machine/Reference.lean ====
section
/-! DEFINITION. The two independent procedures the spec writes out as checks of the generator and of the fold: the
MSB-first form of a table entry (41_table_generator.md R113) and the bit-serial CRC (42_accumulator.md R145). No
command calls them; statements compare the machine with them. -/

namespace Sys2Proof.Machine

/-- One MSB-first shift step on the normal polynomial (41_table_generator.md R113). -/
def msbStep {W : Nat} (poly d : BitVec W) : BitVec W :=
  if d.getLsbD (W - 1) then (d <<< 1) ^^^ poly else d <<< 1

/-- `n` MSB-first shift steps. -/
def msbSteps {W : Nat} (poly : BitVec W) : Nat → BitVec W → BitVec W
  | 0, d => d
  | n + 1, d => msbSteps poly n (msbStep poly d)

/-- A byte placed in the top 8 bits. -/
def topByte (W : Nat) (b : Byte) : BitVec W := b.setWidth W <<< (W - 8)

/-- The table entry by the MSB-first recurrence, for `refin = false` (41_table_generator.md R113). -/
def directEntry {W : Nat} (poly : BitVec W) (i : Byte) : BitVec W := msbSteps poly 8 (topByte W i)

/-- The bit-serial register after a message (42_accumulator.md R145). -/
def bitSerialRegister {W : Nat} (poly : BitVec W) (refin : Bool) : List Byte → BitVec W → BitVec W
  | [], reg => reg
  | b :: m, reg => bitSerialRegister poly refin m (msbSteps poly 8 (reg ^^^ topByte W (if refin then rev b else b)))

/-- The bit-serial checksum of a message (42_accumulator.md R145). -/
def bitSerialChecksum {W : Nat} (poly init : BitVec W) (refin refout : Bool) (xorout : BitVec W) (m : List Byte) :
    BitVec W :=
  let reg := bitSerialRegister poly refin m init
  (if refout then rev reg else reg) ^^^ xorout

end Sys2Proof.Machine
end

