-- ==== Sys2Proof/Safety.lean ====
section
/-! DEFINITION. What statements about runs are made of: the invariant of the states a run can reach, the derived
residue, matched orders, the ghost phase, and the registers seen as numbers. -/

namespace Sys2Proof.Machine

/-- Every entry of the table is the generator's, for the polynomial and the flag in the registers
(10_state.md R28; 41_table_generator.md R115). -/
def Engine.tableMatches {W : Nat} (e : Engine W) : Prop :=
  ∀ i : Byte, e.table.read i = some (tableEntry e.poly e.refin i)

/-- The invariant of every state a run reaches: the table memory has its canonical form, and once configured the
mode byte is legal (60_exceptions.md R183) and the table is the generator's (10_state.md R28). -/
def State.Inv (s : State) : Prop :=
  s.engine.table.wf = true ∧ (s.configured = true → modeLegal s.engine.mode = true ∧ s.engine.tableMatches)

/-- `RESIDUE` is the derived one (10_state.md R27). -/
def State.residueDerived (s : State) : Prop :=
  ∃ order, modeOrder s.engine.mode = some order ∧
    s.engine.residue = deriveResidue s.nativeOrder order s.engine.poly s.engine.init s.engine.refin s.engine.refout
      s.engine.xorout

/-- A matched configuration: the effective order is `Little` with both flags set, or `Big` with both clear
(00_scope.md R17; 42_accumulator.md R166). -/
def State.matchedOrder (s : State) : Prop :=
  ∃ order, modeOrder s.engine.mode = some order ∧
    ((s.engine.refin = true ∧ s.engine.refout = true ∧ effective s.nativeOrder order = .little) ∨
      (s.engine.refin = false ∧ s.engine.refout = false ∧ effective s.nativeOrder order = .big))

/-- The labels the source names and no state holds (10_state.md R33). -/
inductive Phase where
  | initialized
  | accumulating
  | finalized
  deriving DecidableEq, Repr

/-- The ghost phase after a command that succeeded; no result depends on it (10_state.md R33). -/
def phaseAfter (p : Option Phase) : Instr → Option Phase
  | .config _ _ _ _ _ => some .initialized
  | .configu _ _ _ _ _ _ => some .initialized
  | .init => some .initialized
  | .update _ => some .accumulating
  | .rdsum => some .finalized
  | .rdsumb => some .finalized
  | .verify => some .finalized
  | .rdtable _ => p
  | .rdres => p

/-- The architectural state of an instance as numbers and a byte (00_scope.md R9), so that two states are compared
register by register whatever their widths. -/
structure ArchView where
  width : Width
  nativeOrder : ByteEnd
  configured : Bool
  poly : Nat
  init : Nat
  xorout : Nat
  residue : Nat
  mode : Byte
  reg : Nat
  table : List (Nat × Nat)
  deriving DecidableEq, Repr

/-- What 10_state.md R20 and the two instance parameters hold. -/
def State.arch (s : State) : ArchView where
  width := s.width
  nativeOrder := s.nativeOrder
  configured := s.configured
  poly := s.engine.poly.toNat
  init := s.engine.init.toNat
  xorout := s.engine.xorout.toNat
  residue := s.engine.residue.toNat
  mode := s.engine.mode
  reg := s.engine.reg.toNat
  table := s.engine.table.map fun p => (p.1, p.2.toNat)

/-- One entry of the table seen as a number; none where it holds no value. -/
def State.tableAt (s : State) (i : Byte) : Option Nat := (s.engine.table.read i).map BitVec.toNat

/-- `CONFIG` and `CONFIGU` are the construction commands. -/
def isConstruction : Instr → Bool
  | .config _ _ _ _ _ => true
  | .configu _ _ _ _ _ _ => true
  | .init => false
  | .update _ => false
  | .rdsum => false
  | .rdsumb => false
  | .verify => false
  | .rdtable _ => false
  | .rdres => false

/-- The commands that read neither `ORDER` nor write it (10_state.md R25, R36): all but `RDSUMB` and the construction
commands. -/
def ignoresOrder : Instr → Bool
  | .config _ _ _ _ _ => false
  | .configu _ _ _ _ _ _ => false
  | .init => true
  | .update _ => true
  | .rdsum => true
  | .rdsumb => false
  | .verify => true
  | .rdtable _ => true
  | .rdres => true

/-- The commands that write no state: the finalise and read-back groups (10_state.md R36). -/
def onlyReads : Instr → Bool
  | .config _ _ _ _ _ => false
  | .configu _ _ _ _ _ _ => false
  | .init => false
  | .update _ => false
  | .rdsum => true
  | .rdsumb => true
  | .verify => true
  | .rdtable _ => true
  | .rdres => true

/-- The state with another mode byte. -/
def State.withMode (s : State) (mode : Byte) : State := { s with engine := { s.engine with mode := mode } }

/-- The state with another residue. -/
def State.withResidue (s : State) (r : BitVec s.width.bits) : State :=
  { s with engine := { s.engine with residue := r } }

/-- The commands that do not read `RESIDUE` nor write it: all but `VERIFY`, `RDRES` and the construction commands
(10_state.md R36). -/
def ignoresResidue : Instr → Bool
  | .config _ _ _ _ _ => false
  | .configu _ _ _ _ _ _ => false
  | .init => true
  | .update _ => true
  | .rdsum => true
  | .rdsumb => true
  | .verify => false
  | .rdtable _ => true
  | .rdres => false

/-- The state with one more response and no other difference. -/
def State.answer (s : State) (r : List Byte) : State := { s with responses := s.responses ++ [r] }

/-- The state with more responses, in their order, and no other difference. -/
def State.answers (s : State) (l : List (List Byte)) : State := { s with responses := s.responses ++ l }

/-- The accumulator has just been initialised (10_state.md R29; 42_accumulator.md R146). -/
def State.fresh (s : State) : Prop := s.engine.reg = initializeRegister s.engine.init s.engine.refin

/-- The bytes folded since the last `INIT` of a command sequence that starts with `m` folded; construction commands are
not asked about and leave the bytes alone here (42_accumulator.md R158). -/
def bytesSince : List Instr → List Byte → List Byte
  | [], m => m
  | .config _ _ _ _ _ :: l, m => bytesSince l m
  | .configu _ _ _ _ _ _ :: l, m => bytesSince l m
  | .init :: l, _ => bytesSince l []
  | .update b :: l, m => bytesSince l (m ++ [b])
  | .rdsum :: l, m => bytesSince l m
  | .rdsumb :: l, m => bytesSince l m
  | .verify :: l, m => bytesSince l m
  | .rdtable _ :: l, m => bytesSince l m
  | .rdres :: l, m => bytesSince l m

/-- While `CONFIGURED` is 0 the command answers `ERR(NOT_CONFIGURED)` and changes nothing (60_exceptions.md R184). -/
def refusedUnconfigured (i : Instr) : Prop :=
  ∀ s : State, s.configured = false → exec i s = .next (s.answer [0x84])

/-- A string with this opcode byte and another length than `n` answers `ERR(BAD_LENGTH)` and changes nothing
(60_exceptions.md R181). -/
def refusesOtherLengths (opcode : Byte) (n : Width → Nat) : Prop :=
  ∀ (s : State) (c : List Byte) (rest : List HostInput), s.inputs = .command (opcode :: c) :: rest →
    (opcode :: c).length ≠ n s.width → step s = .next (State.answer { s with inputs := rest } [0x82])

/-- The nine ASCII bytes `"123456789"` of the spec's check values (42_accumulator.md R161). -/
def checkMessage : List Byte := [0x31, 0x32, 0x33, 0x34, 0x35, 0x36, 0x37, 0x38, 0x39]

end Sys2Proof.Machine
end

