-- ==== Sys2Proof/Certificates/Slice0/Obligations.lean ====
section
/-! DEFINITION. The statements about the core, each naming the rule or the section of spec/ it rests on. -/

open Sys2Proof Sys2Proof.Machine

/-! ### Encoding -/

/-- Decode and encode agree: every command an instance of width `w` can be sent, with every operand at every value,
is what its command string decodes to (30_encoding.md sections 1 to 3). -/
def Obligations.EncodeThenDecodeGivesTheCommand : Prop :=
  ∀ (w : Width) (i : Instr), wellFormed w i = true → decode w (encode i) = .ok i

/-- Every string that decodes is the encoding of the command it decodes to, which is well formed: no bit of a string
is ignored (30_encoding.md sections 1 to 3). -/
def Obligations.DecodedStringsAreEncodings : Prop :=
  ∀ (w : Width) (c : List Byte) (i : Instr), decode w c = .ok i → wellFormed w i = true ∧ encode i = c

/-- Command strings written out from the encoding tables decode to the command they stand for; the first two have operands
that all differ (30_encoding.md sections 1 to 3; 95_test_vectors.md section 7; 96_golden_tables.md Program 5). -/
def Obligations.WrittenOutCommandsDecode : Prop :=
  decode .w16 [0x01, 0x09, 0x10, 0x21, 0x1D, 0x0F, 0x00, 0x01] =
      .ok (.config .w16 0x09 0x1021#16 0x1D0F#16 0x0001#16) ∧
    decode .w16 [0x02, 0x06, 0x11, 0x22, 0x33, 0x44, 0x55, 0x66, 0x77, 0x88] =
      .ok (.configu .w16 0x06 0x1122#16 0x3344#16 0x5566#16 0x7788#16) ∧
    decode .w32 [0x01, 0x07, 0x04, 0xC1, 0x1D, 0xB7, 0xFF, 0xFF, 0xFF, 0xFF, 0xFF, 0xFF, 0xFF, 0xFF] =
      .ok (.config .w32 0x07 0x04C11DB7#32 0xFFFFFFFF#32 0xFFFFFFFF#32) ∧
    decode .w16 [0x02, 0x00, 0x10, 0x21, 0x00, 0x00, 0x00, 0x00, 0x12, 0x34] =
      .ok (.configu .w16 0x00 0x1021#16 0x0000#16 0x0000#16 0x1234#16) ∧
    decode .w64 [0x10] = .ok .init ∧ decode .w128 [0x11, 0x31] = .ok (.update 0x31) ∧
    decode .w16 [0x20] = .ok .rdsum ∧ decode .w32 [0x21] = .ok .rdsumb ∧ decode .w64 [0x22] = .ok .verify ∧
    decode .w128 [0x30, 0x80] = .ok (.rdtable 0x80) ∧ decode .w16 [0x31] = .ok .rdres

/-- The opcode map is exactly the nine bytes of the table, no two commands share one, and the lengths are those of the
formats at every width (30_encoding.md sections 1 and 3). -/
def Obligations.OpcodeMapAndLengths : Prop :=
  (∀ (b : Byte) (op : Opcode), opcodeOfByte b = some op ↔ b = opcodeByte op) ∧
    (∀ b : Byte, opcodeOfByte b = none ↔ b ∉ [0x01, 0x02, 0x10, 0x11, 0x20, 0x21, 0x22, 0x30, 0x31]) ∧
    ([Width.w16, .w32, .w64, .w128].map fun w => opcodeLength w.bits .config) = [8, 14, 26, 50] ∧
    ([Width.w16, .w32, .w64, .w128].map fun w => opcodeLength w.bits .configu) = [10, 18, 34, 66] ∧
    ∀ w : Width, opcodeLength w.bits .init = 1 ∧ opcodeLength w.bits .update = 2 ∧ opcodeLength w.bits .rdsum = 1 ∧
      opcodeLength w.bits .rdsumb = 1 ∧ opcodeLength w.bits .verify = 1 ∧ opcodeLength w.bits .rdtable = 2 ∧
      opcodeLength w.bits .rdres = 1

/-- 30_encoding.md R64, R65 and R66: a `W`-bit operand is the number its `NB` bytes spell, most significant byte first; a
construction command is its opcode, the mode byte and then `poly`, `init`, `xorout` (and `residue`), each so assembled; and
the same transport carries a `W`-bit value in a response. -/
def Obligations.OperandsTravelMostSignificantByteFirst : Prop :=
  ∀ w : Width,
    (∀ o : List Byte, o.length = numBytes w.bits →
      (wordOfBytes w.bits o).toNat =
          ((List.range (numBytes w.bits)).map fun k =>
            (o.getD k 0).toNat * 2 ^ (8 * (numBytes w.bits - 1 - k))).sum ∧
        byteAt (wordOfBytes w.bits o) (numBytes w.bits - 1) = o.getD 0 0 ∧
        byteAt (wordOfBytes w.bits o) 0 = o.getD (numBytes w.bits - 1) 0 ∧
        encodeResponse (.val (wordOfBytes w.bits o)) = 0x01 :: o) ∧
      (∀ v : Word w, ∃ o : List Byte, o.length = numBytes w.bits ∧ wordOfBytes w.bits o = v ∧
        encodeResponse (.val v) = 0x01 :: o) ∧
      ∀ (mode : Byte) (poly init xorout residue : List Byte), modeLegal mode = true →
        poly.length = numBytes w.bits → init.length = numBytes w.bits → xorout.length = numBytes w.bits →
        residue.length = numBytes w.bits →
        decode w (0x01 :: mode :: (poly ++ init ++ xorout)) =
            .ok (.config w mode (wordOfBytes w.bits poly) (wordOfBytes w.bits init) (wordOfBytes w.bits xorout)) ∧
          decode w (0x02 :: mode :: (poly ++ init ++ xorout ++ residue)) =
            .ok (.configu w mode (wordOfBytes w.bits poly) (wordOfBytes w.bits init) (wordOfBytes w.bits xorout)
              (wordOfBytes w.bits residue))

/-- A host tells responses apart by their bytes (30_encoding.md section 4): at every width two responses with the same
byte string are the same response. -/
def Obligations.ResponseBytesDetermineTheResponse : Prop :=
  ∀ (w : Width) (a b : Response w.bits), encodeResponse a = encodeResponse b → a = b

/-! ### The step, errors, reset -/

/-- A step runs the decoded command: with a command string next in line that decodes, the step is that command's
meaning at the state in which the string has been taken (00_scope.md section 4; 30_encoding.md section 3). -/
def Obligations.StepRunsTheDecodedCommand : Prop :=
  ∀ (s : State) (c : List Byte) (rest : List HostInput) (i : Instr), s.inputs = .command c :: rest →
    decode s.width c = .ok i → step s = exec i { s with inputs := rest }

/-- A string that is not a command answers `0x80 + cause`, and nothing but the taken string and the response differs
(60_exceptions.md section 1). -/
def Obligations.StepAnswersAStringThatIsNoCommand : Prop :=
  ∀ (s : State) (c : List Byte) (rest : List HostInput) (cause : ErrorCause), s.inputs = .command c :: rest →
    decode s.width c = .error cause →
      step s = .next { s with inputs := rest, responses := s.responses ++ [[BitVec.ofNat 8 (0x80 + errorCode cause)]] }

/-- Between commands the core holds its state (60_exceptions.md section 7; log 8). -/
def Obligations.IdleStepChangesNothing : Prop :=
  ∀ s : State, s.inputs = [] → step s = .next s

/-- No command can stop the core: from every state that satisfies the invariant the step answers a next state,
whatever the host presents (60_exceptions.md section 1). -/
def Obligations.EveryStepCompletes : Prop :=
  ∀ s : State, s.Inv → ∃ t, step s = .next t

/-- Every command produces exactly one response, of a kind of 30_encoding.md section 4, and takes exactly itself from
the host. -/
def Obligations.EveryCommandSendsOneResponse : Prop :=
  ∀ (s t : State) (c : List Byte) (rest : List HostInput), s.inputs = .command c :: rest → step s = .next t →
    t.inputs = rest ∧ t.resets = s.resets ∧
      ∃ r : Response s.width.bits, t.responses = s.responses ++ [encodeResponse r]

/-- 60_exceptions.md R182: a command that responds `ERR` leaves every register, the table and `CONFIGURED` as they were,
and the command after it is answered as if the failing one had not been issued: it answers exactly when it would have
answered then, with the same response and the same architectural state. -/
def Obligations.ErrorsHaveNoEffect : Prop :=
  ∀ (s t : State) (c : List Byte) (rest : List HostInput) (cause : ErrorCause), s.inputs = .command c :: rest →
    step s = .next t → t.responses = s.responses ++ [[BitVec.ofNat 8 (0x80 + errorCode cause)]] →
      t = { s with inputs := rest, responses := t.responses } ∧
      ∀ c' : List Byte,
        (∀ u' : State, step (present c' { s with inputs := rest }) = .next u' →
          ∃ (t' : State) (r : List Byte), step (present c' t) = .next t' ∧
            t'.arch = u'.arch ∧ t'.responses = t.responses ++ [r] ∧ u'.responses = s.responses ++ [r]) ∧
        ∀ t' : State, step (present c' t) = .next t' →
          ∃ (u' : State) (r : List Byte), step (present c' { s with inputs := rest }) = .next u' ∧
            t'.arch = u'.arch ∧ t'.responses = t.responses ++ [r] ∧ u'.responses = s.responses ++ [r]

/-- 60_exceptions.md R186: exactly one error is reported, the first of: empty string, unknown opcode, wrong length,
reserved field, not configured. -/
def Obligations.FirstFailingTestDecidesTheError : Prop :=
  ∀ (s : State) (c : List Byte) (rest : List HostInput), s.inputs = .command c :: rest →
    (c = [] → step s = .next (State.answer { s with inputs := rest } [0x82])) ∧
    (∀ b bs, c = b :: bs → opcodeOfByte b = none → step s = .next (State.answer { s with inputs := rest } [0x81])) ∧
    (∀ b bs op, c = b :: bs → opcodeOfByte b = some op → c.length ≠ opcodeLength s.width.bits op →
      step s = .next (State.answer { s with inputs := rest } [0x82])) ∧
    (∀ b bs op, c = b :: bs → opcodeOfByte b = some op → c.length = opcodeLength s.width.bits op →
      (op = .config ∨ op = .configu) → modeLegal (c.getD 1 0) = false →
        step s = .next (State.answer { s with inputs := rest } [0x83])) ∧
    (∀ b bs op, c = b :: bs → opcodeOfByte b = some op → c.length = opcodeLength s.width.bits op →
      op ≠ .config → op ≠ .configu → s.configured = false →
        step s = .next (State.answer { s with inputs := rest } [0x84])) ∧
    (c = [0x00, 0x00] → step s = .next (State.answer { s with inputs := rest } [0x81])) ∧
    (c = [0x11] → s.configured = false → step s = .next (State.answer { s with inputs := rest } [0x82])) ∧
    (∀ bs, c = 0x01 :: 0xFF :: bs → c.length ≠ opcodeLength s.width.bits .config →
      step s = .next (State.answer { s with inputs := rest } [0x82]))

/-- 30_encoding.md R67 and 60_exceptions.md R183: bit 0 of the mode byte is `refin`, bit 1 `refout`, bits 3:2 `order` (0 is
Big, 1 Little, 2 Native, 3 has no meaning); the legal mode bytes are the twelve `0x00 .. 0x0B`; the other 244 are refused by both
construction commands, and no command stores a reserved value in `MODE`. -/
def Obligations.ReservedModesAreRefused : Prop :=
  (∀ mode : Byte, (modeRefin mode = true ↔ mode.toNat % 2 = 1) ∧ (modeRefout mode = true ↔ mode.toNat / 2 % 2 = 1) ∧
    (modeOrder mode = some .big ↔ mode.toNat / 4 % 4 = 0) ∧ (modeOrder mode = some .little ↔ mode.toNat / 4 % 4 = 1) ∧
    (modeOrder mode = some .native ↔ mode.toNat / 4 % 4 = 2) ∧ (modeOrder mode = none ↔ mode.toNat / 4 % 4 = 3) ∧
    (modeLegal mode = true ↔ mode.toNat / 16 = 0 ∧ mode.toNat / 4 % 4 ≠ 3)) ∧
  (∀ mode : Byte, modeLegal mode = true ↔ mode.toNat ≤ 0x0B) ∧
    ((List.range 256).filter fun k => !modeLegal (BitVec.ofNat 8 k)).length = 244 ∧
    (∀ (s : State) (mode : Byte) (poly init xorout residue : Word s.width), modeLegal mode = false →
      exec (.config s.width mode poly init xorout) s = .next (s.answer [0x83]) ∧
        exec (.configu s.width mode poly init xorout residue) s = .next (s.answer [0x83])) ∧
    ∀ (s t : State) (i : Instr), exec i s = .next t → t.engine.mode ≠ s.engine.mode → modeLegal t.engine.mode = true

/-- 60_exceptions.md R184: while `CONFIGURED` is 0 every command other than `CONFIG` and `CONFIGU` is refused with
`NOT_CONFIGURED`, with no effect; `CONFIGURED` is 0 after reset, and a construction command is not refused so. -/
def Obligations.UnconfiguredCommandsAreRefused : Prop :=
  (∀ i : Instr, isConstruction i = false → refusedUnconfigured i) ∧
    (∀ s : State, (takeReset s).configured = false) ∧ State.reset.configured = false ∧
    ∀ (s t : State) (i : Instr), isConstruction i = true → exec i s = .next t → t ≠ s.answer [0x84]

/-- After reset `CONFIGURED` is 0 and no table entry holds a value (10_state.md section 7). That the host has presented
nothing and no response has been sent is the model's choice (log 7, log 9), as is the memory without values (log 5). -/
def Obligations.ResetState : Prop :=
  ∀ (w : Width) (e : ByteEnd), (State.resetOf w e).width = w ∧ (State.resetOf w e).nativeOrder = e ∧
    (State.resetOf w e).configured = false ∧ (∀ i : Byte, (State.resetOf w e).engine.table.read i = none) ∧
    (State.resetOf w e).inputs = [] ∧ (State.resetOf w e).responses = []

/-- The reset event (70_reset_and_hazards.md section 1): `CONFIGURED` becomes 0, the instance parameters stay, and no
table entry holds a value any more. What the registers then hold is the free value of log 4, named for the number of the
reset; nothing is said of it. -/
def Obligations.ResetEvent : Prop :=
  ∀ (s : State) (rest : List HostInput), s.inputs = .reset :: rest →
    ∃ t, step s = .next t ∧ t.configured = false ∧ t.width = s.width ∧ t.nativeOrder = s.nativeOrder ∧
      (∀ i : Byte, t.engine.table.read i = none) ∧ t.inputs = rest ∧ t.responses = s.responses ∧
      t.engine = Engine.unspecified t.width.bits (s.resets + 1)

/-! ### Invariants and whole-machine rules -/

/-- The invariant holds right after reset, for every instance. -/
def Obligations.InvHoldsAtReset : Prop :=
  State.reset.Inv ∧ ∀ (w : Width) (e : ByteEnd), (State.resetOf w e).Inv

/-- Every step keeps the invariant: the table memory stays canonical, and while the core is configured `MODE` holds a
legal byte and all 256 entries are the generator's for `POLY` and `REFIN` (10_state.md section 3;
41_table_generator.md section 1; 60_exceptions.md section 1). -/
def Obligations.StepKeepsInv : Prop :=
  ∀ s t : State, s.Inv → step s = .next t → t.Inv

/-- `W` and `NATIVE_ORDER` are properties of the instance: no step changes them, the reset event included
(70_reset_and_hazards.md section 1; 30_encoding.md section 5). -/
def Obligations.StepKeepsTheInstanceParameters : Prop :=
  ∀ s t : State, step s = .next t → t.width = s.width ∧ t.nativeOrder = s.nativeOrder

/-- 10_state.md R26: no command other than `CONFIG` and `CONFIGU` writes a configuration register, and each of these two
replaces everything: what they leave does not depend on the registers, the table or the accumulator before. -/
def Obligations.OnlyConstructionWritesTheConfiguration : Prop :=
  (∀ (s t : State) (i : Instr), isConstruction i = false → exec i s = .next t →
    t.arch = { s.arch with reg := t.arch.reg }) ∧
  ∀ (s s' t t' : State) (i : Instr), isConstruction i = true → s.width = s'.width → s.nativeOrder = s'.nativeOrder →
    s.engine.table.wf = true → s'.engine.table.wf = true → exec i s = .next t → exec i s' = .next t' →
    t.responses = s.responses ++ [[0x00]] → t'.responses = s'.responses ++ [[0x00]] ∧ t.arch = t'.arch

/-- 10_state.md R27: after `CONFIG` the residue is the derived one and stays so until the next configuration by
`CONFIGU` or a reset; after `CONFIGU` it is the derived one exactly when the residue supplied is, and on every instance a
`CONFIGU` from reset leaves one that is not. -/
def Obligations.DerivedResidueStaysDerived : Prop :=
  (∀ (s t : State) (mode : Byte) (poly init xorout : Word s.width), modeLegal mode = true →
    exec (.config s.width mode poly init xorout) s = .next t → t.residueDerived) ∧
  (∀ s t : State, s.residueDerived → s.inputs.head? ≠ some .reset →
    (∀ c rest, s.inputs = .command c :: rest → c.head? ≠ some 0x02) → step s = .next t → t.residueDerived) ∧
  (∀ (s t : State) (mode : Byte) (poly init xorout residue : Word s.width) (f : ModeFields), modeFields mode = some f →
    exec (.configu s.width mode poly init xorout residue) s = .next t →
      (t.residueDerived ↔
        residue = deriveResidue s.nativeOrder f.order poly init f.refin f.refout xorout)) ∧
  ∀ (w : Width) (e : ByteEnd) (mode : Byte), modeLegal mode = true →
    ∃ (poly init xorout residue : Word w) (t : State),
      exec (.configu w mode poly init xorout residue) (State.resetOf w e) = .next t ∧ t.configured = true ∧
        ¬ t.residueDerived

/-- 10_state.md R30: `CONFIGURED` is 0 after reset, is set by every successful construction command, is cleared by
nothing but reset, and while it is 0 every other command is refused with `NOT_CONFIGURED`. -/
def Obligations.ConfiguredFlag : Prop :=
  (∀ s : State, (takeReset s).configured = false) ∧ State.reset.configured = false ∧
  (∀ (s t : State) (i : Instr), isConstruction i = true → exec i s = .next t →
    t.responses = s.responses ++ [[0x00]] → t.configured = true) ∧
  (∀ s t : State, s.configured = true → step s = .next t → t.configured = false → s.inputs.head? = some .reset) ∧
  (∀ (s t : State) (i : Instr), isConstruction i = false → exec i s = .next t → t.configured = s.configured) ∧
  ∀ i : Instr, isConstruction i = false → refusedUnconfigured i

/-- 10_state.md R34: a response and the state after a command are functions of the architectural state, the command
bytes and the two parameters: two instances that agree on these agree on both. -/
def Obligations.ResponseIsAFunctionOfTheState : Prop :=
  ∀ (s s' t : State) (c : List Byte), s.arch = s'.arch → step (present c s) = .next t →
    ∃ (t' : State) (r : List Byte), step (present c s') = .next t' ∧ t.arch = t'.arch ∧
      t.responses = s.responses ++ [r] ∧ t'.responses = s'.responses ++ [r]

/-- 40_datapath_functions.md R98: the byte order does not affect the register arithmetic. Every command but `RDSUMB` and
the construction commands does the same under any `ORDER`, and a configuration with another `order` (and the same
`refin`) differs in `MODE` and, when `CONFIG` derives it, `RESIDUE` alone. -/
def Obligations.ByteOrderDoesNotAffectTheArithmetic : Prop :=
  (∀ (s t : State) (mode : Byte) (i : Instr), modeRefin mode = s.engine.refin → modeRefout mode = s.engine.refout →
    ignoresOrder i = true → exec i s = .next t → exec i (s.withMode mode) = .next (t.withMode mode)) ∧
  (∀ (s t t' : State) (mode mode' : Byte) (poly init xorout : Word s.width), modeLegal mode = true →
    modeLegal mode' = true → modeRefin mode = modeRefin mode' →
    exec (.config s.width mode poly init xorout) s = .next t →
    exec (.config s.width mode' poly init xorout) s = .next t' →
      t'.arch = { t.arch with mode := mode', residue := t'.arch.residue }) ∧
  ∀ (s t t' : State) (mode mode' : Byte) (poly init xorout residue : Word s.width), modeLegal mode = true →
    modeLegal mode' = true → modeRefin mode = modeRefin mode' →
    exec (.configu s.width mode poly init xorout residue) s = .next t →
    exec (.configu s.width mode' poly init xorout residue) s = .next t' →
      t'.arch = { t.arch with mode := mode' }

/-! ### Frames -/

/-- The finalise and read-back commands write nothing: when one answers next, every register, the flag, every table
entry, the waiting inputs and the reset count are as before (10_state.md section 8; 20_memory.md section 3). -/
def Obligations.ReadingCommandsChangeNoState : Prop :=
  ∀ (s t : State) (i : Instr), onlyReads i = true → exec i s = .next t →
    t.arch = s.arch ∧ (∀ a : Byte, t.tableAt a = s.tableAt a) ∧ t.inputs = s.inputs ∧ t.resets = s.resets ∧
      ∃ r, t = s.answer r

/-- `INIT` and `UPDATE` write `REG` and nothing else: when one answers next, every other register, the flag, every table
entry, the waiting inputs and the reset count are as before (10_state.md section 8). -/
def Obligations.AccumulatorCommandsChangeOnlyReg : Prop :=
  ∀ (s t : State) (i : Instr), (i = .init ∨ ∃ b, i = .update b) → exec i s = .next t →
    t.arch = { s.arch with reg := t.arch.reg } ∧ (∀ a : Byte, t.tableAt a = s.tableAt a) ∧ t.inputs = s.inputs ∧
      t.resets = s.resets ∧ ∃ v r, t = (s.withReg v).answer r

/-- A construction command writes all of the engine and the flag, or nothing: the instance parameters, the waiting inputs
and the reset count are as before, one response is added, and of the table every entry is the generator's or every entry
is as before (10_state.md section 8; 41_table_generator.md section 3). -/
def Obligations.ConstructionFrame : Prop :=
  ∀ (s t : State) (i : Instr), isConstruction i = true → exec i s = .next t →
    t.width = s.width ∧ t.nativeOrder = s.nativeOrder ∧ t.inputs = s.inputs ∧ t.resets = s.resets ∧
      ((t.responses = s.responses ++ [[0x00]] ∧ t.configured = true ∧ t.engine.tableMatches) ∨
        ((t = s.answer [0x82] ∨ t = s.answer [0x83]) ∧ ∀ a : Byte, t.tableAt a = s.tableAt a))

/-! ### The construction commands -/

/-- 41_table_generator.md R120, `CONFIG`: in any state, with operands of the instance's width and a legal mode, every
register, all 256 entries and the flag are written in one step and `ACK` is sent; the residue is derived. Reserved modes
and other lengths are refused, the latter whatever the state. With a zero polynomial the table is zero and an `UPDATE`
merely shifts `REG`; two `CONFIG`s with the same operands leave the same state. -/
def Obligations.ConfigCommand : Prop :=
  (∀ (s : State) (mode : Byte) (poly init xorout : Word s.width) (f : ModeFields), modeFields mode = some f →
    f.refin = mode.getLsbD 0 ∧ f.refout = mode.getLsbD 1 ∧
    (f.order = .big ↔ mode.extractLsb' 2 2 = 0) ∧ (f.order = .little ↔ mode.extractLsb' 2 2 = 1) ∧
    (f.order = .native ↔ mode.extractLsb' 2 2 = 2) ∧
    ∃ table : Memory s.width.bits, (∀ i : Byte, table.read i = some (tableEntry poly f.refin i)) ∧
      exec (.config s.width mode poly init xorout) s =
        .next { s with
          engine :=
            { poly := poly
              init := init
              xorout := xorout
              residue := deriveResidue s.nativeOrder f.order poly init f.refin f.refout xorout
              mode := mode
              table := table
              reg := initializeRegister init f.refin }
          configured := true
          responses := s.responses ++ [[0x00]] }) ∧
  (∀ (s : State) (mode : Byte) (poly init xorout : Word s.width), modeFields mode = none →
    exec (.config s.width mode poly init xorout) s = .next (s.answer [0x83])) ∧
  refusesOtherLengths 0x01 (fun w => 2 + 3 * (w.bits / 8)) ∧
  (∀ (w : Width) (refin : Bool) (i b : Byte) (r : Word w), tableEntry (0 : Word w) refin i = 0 ∧
    foldByte refin r b (tableEntry 0 refin) = if refin then r >>> 8 else r <<< 8) ∧
  (∀ (s t t' : State) (mode : Byte) (poly init xorout : Word s.width), s.engine.table.wf = true →
    exec (.config s.width mode poly init xorout) s = .next t →
    exec (.config s.width mode poly init xorout) t = .next t' → t'.arch = t.arch) ∧
  ∀ e : ByteEnd, ∃ t,
    step (present [0x01, 0x07, 0x04, 0xC1, 0x1D, 0xB7, 0xFF, 0xFF, 0xFF, 0xFF, 0xFF, 0xFF, 0xFF, 0xFF]
      (State.resetOf .w32 e)) = .next t ∧
      t.arch.poly = 0x04C11DB7 ∧ t.arch.mode = 0x07 ∧ t.arch.reg = 0xFFFFFFFF ∧ t.arch.residue = 0xDEBB20E3 ∧
      t.tableAt 1 = some 0x77073096

/-- 41_table_generator.md R122, `CONFIGU`: as `CONFIG`, but the residue is the one given, unchecked, and only the
residue: with the derived residue the state is the one `CONFIG` leaves, and the commands that do not read `RESIDUE` do the
same under any residue. -/
def Obligations.ConfiguCommand : Prop :=
  (∀ (s : State) (mode : Byte) (poly init xorout residue : Word s.width) (f : ModeFields),
    modeFields mode = some f → f.refin = mode.getLsbD 0 ∧
    ∃ table : Memory s.width.bits, (∀ i : Byte, table.read i = some (tableEntry poly f.refin i)) ∧
      exec (.configu s.width mode poly init xorout residue) s =
        .next { s with
          engine :=
            { poly := poly
              init := init
              xorout := xorout
              residue := residue
              mode := mode
              table := table
              reg := initializeRegister init f.refin }
          configured := true
          responses := s.responses ++ [[0x00]] }) ∧
  (∀ (s : State) (mode : Byte) (poly init xorout residue : Word s.width), modeFields mode = none →
    exec (.configu s.width mode poly init xorout residue) s = .next (s.answer [0x83])) ∧
  refusesOtherLengths 0x02 (fun w => 2 + 4 * (w.bits / 8)) ∧
  (∀ (s : State) (mode : Byte) (poly init xorout : Word s.width) (f : ModeFields), modeFields mode = some f →
    exec (.configu s.width mode poly init xorout
      (deriveResidue s.nativeOrder f.order poly init f.refin f.refout xorout)) s =
        exec (.config s.width mode poly init xorout) s) ∧
  (∀ (s t : State) (r : Word s.width) (i : Instr), ignoresResidue i = true → exec i s = .next t →
    exec i (s.withResidue r) = .next (t.withResidue (r.setWidth t.width.bits))) ∧
  ∀ e : ByteEnd, ∃ t,
    step (present [0x02, 0x00, 0x10, 0x21, 0x00, 0x00, 0x00, 0x00, 0x12, 0x34] (State.resetOf .w16 e)) = .next t ∧
      t.arch.poly = 0x1021 ∧ t.arch.init = 0 ∧ t.arch.xorout = 0 ∧ t.arch.mode = 0 ∧ t.arch.residue = 0x1234 ∧
      deriveResidue e .big 0x1021#16 0 false false 0 = 0

/-- Construction equivalence (41_table_generator.md section 3): `CONFIGU` with the residue that `RDRES` returns after
`CONFIG` leaves, in every register, every entry and `REG`, the state of that `CONFIG`. -/
def Obligations.ConstructionEquivalence : Prop :=
  ∀ (s t : State) (mode : Byte) (poly init xorout residue : Word s.width), modeLegal mode = true →
    exec (.config s.width mode poly init xorout) s = .next t →
    exec .rdres t = .next (t.answer (0x01 :: wordBytes residue)) →
      exec (.configu s.width mode poly init xorout residue) s = .next t

/-- 20_memory.md R53: whatever the memory held before, after `CONFIG` or `CONFIGU` every table read returns the
generator's entry for the `POLY` and `REFIN` now in the registers. -/
def Obligations.ConfigurationFillsTheTable : Prop :=
  ∀ (s t : State) (i : Instr), isConstruction i = true → exec i s = .next t → t.responses = s.responses ++ [[0x00]] →
    ∀ a : Byte, t.engine.table.read a = some (tableEntry t.engine.poly t.engine.refin a) ∧
      ∃ v : Word t.width, v = tableEntry t.engine.poly t.engine.refin a ∧
        exec (.rdtable a) t = .next (t.answer (0x01 :: wordBytes v))

/-! ### The accumulator, finalise and read-back commands -/

/-- 42_accumulator.md R146, `INIT`: `REG` becomes `INIT`, reversed when `REFIN` is set, and nothing else changes;
`ACK`. It is idempotent, and changes nothing directly after a construction command. -/
def Obligations.InitCommand : Prop :=
  (∀ w : Width, decode w [0x10] = .ok .init) ∧ refusesOtherLengths 0x10 (fun _ => 1) ∧ refusedUnconfigured .init ∧
  (∀ s : State, s.configured = true →
    exec .init s =
      .next { s with
        engine := { s.engine with reg := if s.engine.mode.getLsbD 0 then rev s.engine.init else s.engine.init }
        responses := s.responses ++ [[0x00]] }) ∧
  (∀ s t t' : State, exec .init s = .next t → exec .init t = .next t' → t'.arch = t.arch) ∧
  (∀ (s t t' : State) (i : Instr), isConstruction i = true → exec i s = .next t →
    t.responses = s.responses ++ [[0x00]] → exec .init t = .next t' → t'.arch = t.arch) ∧
  initializeRegister 0x1234#16 true = 0x2C48#16

/-- 42_accumulator.md R148, `UPDATE`: one byte is folded into `REG` through the generator's table, in the direction
`REFIN` selects, and nothing else changes; `ACK`, whatever the byte. -/
def Obligations.UpdateCommand : Prop :=
  (∀ (w : Width) (b : Byte), decode w [0x11, b] = .ok (.update b)) ∧ refusesOtherLengths 0x11 (fun _ => 2) ∧
  (∀ b : Byte, refusedUnconfigured (.update b)) ∧
  (∀ (s : State) (b : Byte), s.Inv → s.configured = true →
    exec (.update b) s =
      .next { s with
        engine :=
          { s.engine with
            reg :=
              if s.engine.mode.getLsbD 0 then
                tableEntry s.engine.poly true (s.engine.reg.extractLsb' 0 8 ^^^ b) ^^^ (s.engine.reg >>> 8)
              else
                tableEntry s.engine.poly false (s.engine.reg.extractLsb' (s.width.bits - 8) 8 ^^^ b) ^^^
                  (s.engine.reg <<< 8) }
        responses := s.responses ++ [[0x00]] }) ∧
  (∀ (w : Width) (refin : Bool) (poly : Word w), foldByte refin 0 0 (tableEntry poly refin) = 0) ∧
  foldByte true 0xFFFFFFFF#32 0x31 (tableEntry 0x04C11DB7#32 true) = 0x7C231048#32

/-- `RDSUM` (42_accumulator.md section 2): the response is `VAL` of the accumulator, reversed when exactly one flag is
set, XOR `XOROUT`; nothing changes, so a second `RDSUM` returns the same. -/
def Obligations.RdsumCommand : Prop :=
  (∀ w : Width, decode w [0x20] = .ok .rdsum) ∧ refusesOtherLengths 0x20 (fun _ => 1) ∧ refusedUnconfigured .rdsum ∧
  (∀ s : State, s.configured = true →
    exec .rdsum s =
      .next { s with
        responses := s.responses ++ [0x01 :: wordBytes
          ((if s.engine.mode.getLsbD 0 ^^ s.engine.mode.getLsbD 1 then rev s.engine.reg else s.engine.reg) ^^^
            s.engine.xorout)] }) ∧
  finalize true true 0xFFFFFFFF#32 0x340BC6D9#32 = 0xCBF43926#32 ∧
  encodeResponse (.val 0xCBF43926#32) = [0x01, 0xCB, 0xF4, 0x39, 0x26]

/-- 42_accumulator.md R154, `RDSUMB`: the response is `BYTES` of the checksum's `NB` bytes in the order `ORDER` names,
`Native` being `NATIVE_ORDER`; nothing changes. -/
def Obligations.RdsumbCommand : Prop :=
  (∀ w : Width, decode w [0x21] = .ok .rdsumb) ∧ refusesOtherLengths 0x21 (fun _ => 1) ∧
  refusedUnconfigured .rdsumb ∧
  (∀ (s : State) (order : Order), s.configured = true → modeOrder s.engine.mode = some order →
    (order = .big ↔ s.engine.mode.extractLsb' 2 2 = 0) ∧ (order = .little ↔ s.engine.mode.extractLsb' 2 2 = 1) ∧
    (order = .native ↔ s.engine.mode.extractLsb' 2 2 = 2) ∧
    (exec .rdsumb s =
      .next { s with
        responses := s.responses ++ [0x02 :: toEndianBytes s.nativeOrder
          (finalize (s.engine.mode.getLsbD 0) (s.engine.mode.getLsbD 1) s.engine.xorout s.engine.reg) order] }) ∧
      ∀ v : Word s.width, (toEndianBytes s.nativeOrder v order).length = s.width.bits / 8 ∧
        (order = .native → toEndianBytes s.nativeOrder v order = bytesFrom v s.nativeOrder)) ∧
  (∀ e : ByteEnd, 0x02 :: toEndianBytes e 0xCBF43926#32 .little = [0x02, 0x26, 0x39, 0xF4, 0xCB] ∧
    0x02 :: toEndianBytes e 0xFC891918#32 .big = [0x02, 0xFC, 0x89, 0x19, 0x18])

/-- 42_accumulator.md R156, `VERIFY`: the response is `BOOL` of whether the accumulator, reversed when exactly one flag is
set and without XOR-out, equals `RESIDUE`, whichever command wrote that; nothing changes. -/
def Obligations.VerifyCommand : Prop :=
  (∀ w : Width, decode w [0x22] = .ok .verify) ∧ refusesOtherLengths 0x22 (fun _ => 1) ∧
  refusedUnconfigured .verify ∧
  (∀ s : State, s.configured = true →
    exec .verify s =
      .next { s with
        responses := s.responses ++ [[0x03,
          if (if s.engine.mode.getLsbD 0 ^^ s.engine.mode.getLsbD 1 then rev s.engine.reg else s.engine.reg) =
            s.engine.residue then 0x01 else 0x00]] }) ∧
  (∀ s t : State, s.configured = true → exec .init s = .next t → ∃ b : Bool,
    exec .verify t = .next (t.answer [0x03, if b then 0x01 else 0x00]) ∧
      (b = true ↔ reflectConditionally s.engine.refin s.engine.refout
        (initializeRegister s.engine.init s.engine.refin) = s.engine.residue)) ∧
  (∀ (w : Width) (n : ByteEnd) (order : Order) (poly : Word w) (refin refout : Bool),
    reflectConditionally refin refout (initializeRegister (0 : Word w) refin) =
      deriveResidue n order poly 0 refin refout 0) ∧
  foldBytes true 0xFFFFFFFF#32 (checkMessage ++ [0x26, 0x39, 0xF4, 0xCB]) (tableEntry 0x04C11DB7#32 true) =
    0xDEBB20E3#32 ∧
  ∀ e : ByteEnd, reflectConditionally true true 0xDEBB20E3#32 =
    deriveResidue e .little 0x04C11DB7#32 0xFFFFFFFF#32 true true 0xFFFFFFFF#32

/-- 41_table_generator.md R124, `RDTABLE`: the response is `VAL` of the generator's entry at the index; entry 0 is 0, all
256 indexes are legal, and nothing changes. -/
def Obligations.RdtableCommand : Prop :=
  (∀ (w : Width) (i : Byte), decode w [0x30, i] = .ok (.rdtable i)) ∧ refusesOtherLengths 0x30 (fun _ => 2) ∧
  (∀ i : Byte, refusedUnconfigured (.rdtable i)) ∧
  (∀ (s : State) (i : Byte), s.Inv → s.configured = true →
    exec (.rdtable i) s =
      .next { s with
        responses := s.responses ++ [0x01 :: wordBytes (tableEntry s.engine.poly (s.engine.mode.getLsbD 0) i)] }) ∧
  (∀ (w : Width) (poly : Word w) (refin : Bool), tableEntry poly refin 0 = 0) ∧
  encodeResponse (.val (tableEntry 0x04C11DB7#32 true 0x80)) = [0x01, 0xED, 0xB8, 0x83, 0x20]

/-- 41_table_generator.md R126, `RDRES`: the response is `VAL` of `RESIDUE`, the derived one after `CONFIG` and the
supplied one after `CONFIGU`; nothing changes. -/
def Obligations.RdresCommand : Prop :=
  (∀ w : Width, decode w [0x31] = .ok .rdres) ∧ refusesOtherLengths 0x31 (fun _ => 1) ∧ refusedUnconfigured .rdres ∧
  (∀ s : State, s.configured = true →
    exec .rdres s = .next { s with responses := s.responses ++ [0x01 :: wordBytes s.engine.residue] }) ∧
  (∀ (s t : State) (mode : Byte) (poly init xorout : Word s.width) (f : ModeFields), modeFields mode = some f →
    exec (.config s.width mode poly init xorout) s = .next t →
      exec .rdres t = .next (t.answer (0x01 :: wordBytes
        (deriveResidue s.nativeOrder f.order poly init f.refin f.refout xorout)))) ∧
  (∀ (s t : State) (mode : Byte) (poly init xorout residue : Word s.width), modeLegal mode = true →
    exec (.configu s.width mode poly init xorout residue) s = .next t →
      exec .rdres t = .next (t.answer (0x01 :: wordBytes residue))) ∧
  ∀ e : ByteEnd, encodeResponse (.val (deriveResidue e .little 0x04C11DB7#32 0xFFFFFFFF#32 true true 0xFFFFFFFF#32)) =
    [0x01, 0xDE, 0xBB, 0x20, 0xE3]

/-! ### The datapath functions -/

/-- 40_datapath_functions.md R91: bit `i` of `reflect(v)` is bit `W-1-i` of `v`, with the corner cases and the example of
the rule. -/
def Obligations.ReflectionReversesTheBits : Prop :=
  (∀ (w : Width) (v : Word w), (∀ i < w.bits, (rev v).getLsbD i = v.getLsbD (w.bits - 1 - i)) ∧ rev (rev v) = v) ∧
  (∀ w : Width, rev (0 : Word w) = 0 ∧ rev (BitVec.allOnes w.bits) = BitVec.allOnes w.bits ∧
    (rev (1 : Word w)).toNat = 2 ^ (w.bits - 1)) ∧
  rev 0x04C11DB7#32 = 0xEDB88320#32

/-- 40_datapath_functions.md R92: the initial register is `init`, its bits reversed across `W` when `reflect_input` is
set, with the corner cases and the examples of the rule. -/
def Obligations.InitialRegister : Prop :=
  (∀ (w : Width) (init : Word w), (∀ i < w.bits,
      (initializeRegister init true).getLsbD i = init.getLsbD (w.bits - 1 - i)) ∧
    initializeRegister init false = init) ∧
  (∀ (w : Width) (refin : Bool), initializeRegister (0 : Word w) refin = 0 ∧
    initializeRegister (BitVec.allOnes w.bits) refin = BitVec.allOnes w.bits) ∧
  initializeRegister 0x1234#16 true = 0x2C48#16 ∧ initializeRegister 0x1234#16 false = 0x1234#16 ∧
  initializeRegister 0xFFFFFFFF#32 true = 0xFFFFFFFF#32

/-- 40_datapath_functions.md R93: the value is reversed exactly when one of the two flags is set, with the examples of
the rule. -/
def Obligations.ConditionalReflection : Prop :=
  (∀ (w : Width) (v : Word w),
    reflectConditionally false false v = v ∧ reflectConditionally true true v = v ∧
    ∀ i < w.bits, (reflectConditionally false true v).getLsbD i = v.getLsbD (w.bits - 1 - i) ∧
      (reflectConditionally true false v).getLsbD i = v.getLsbD (w.bits - 1 - i)) ∧
  reflectConditionally true false 0x8408#16 = 0x1021#16 ∧ reflectConditionally true true 0x8408#16 = 0x8408#16

/-- `REG` is observable through `RDSUM` (42_accumulator.md section 2): from the value `v` that `RDSUM` returns in a
configured state, `REG` is the conditional reflection of `v ^ XOROUT`; and two configured states of one configuration have
equal `REG` exactly when their `RDSUM` responses are equal. Behind it, `finalize` is a bijection for fixed parameters and
the conditional reflection is linear (40_datapath_functions.md sections 3 and 4). -/
def Obligations.RdsumDeterminesTheRegister : Prop :=
  (∀ (s : State) (v : Word s.width), s.configured = true → exec .rdsum s = .next (s.answer (0x01 :: wordBytes v)) →
    s.engine.reg = reflectConditionally s.engine.refin s.engine.refout (v ^^^ s.engine.xorout)) ∧
  (∀ s s' : State, s.configured = true → s'.arch = { s.arch with reg := s'.arch.reg } →
    ∃ r r' : List Byte, exec .rdsum s = .next (s.answer r) ∧ exec .rdsum s' = .next (s'.answer r') ∧
      (r = r' ↔ s.arch.reg = s'.arch.reg)) ∧
  ∀ (w : Width) (refin refout : Bool) (xorout r r' : Word w),
    r = reflectConditionally refin refout (finalize refin refout xorout r ^^^ xorout) ∧
      (finalize refin refout xorout r = finalize refin refout xorout r' ↔ r = r') ∧
      reflectConditionally refin refout (r ^^^ r') =
        reflectConditionally refin refout r ^^^ reflectConditionally refin refout r'

/-- Serialisation (40_datapath_functions.md section 5). That `Big` is most significant byte first and `Little` least
significant byte first is PRESUMED (log 19): R97 states it and marks it as general knowledge, not in source (G1). `NB` bytes, the most significant first for `Big` and the least
significant first for `Little`, `Native` being the instance's order; and the payload of `RDSUM`, which is always most
significant byte first, is that of `RDSUMB` for every value exactly when the effective order is `Big`
(70_reset_and_hazards.md section 3). -/
def Obligations.SerialisationPlacesTheBytes : Prop :=
  ∀ (w : Width) (n : ByteEnd) (order : Order),
    (∀ v : Word w, (toEndianBytes n v order).length = w.bits / 8 ∧
      ∀ k < w.bits / 8, ∀ j < 8,
        ((toEndianBytes n v order).getD k 0).getLsbD j =
          match effective n order with
          | .big => v.getLsbD (8 * (w.bits / 8 - 1 - k) + j)
          | .little => v.getLsbD (8 * k + j)) ∧
    ((∀ v : Word w, toEndianBytes n v order = wordBytes v) ↔ effective n order = .big)

/-- The table by the other recurrence (41_table_generator.md section 1): for `refin = false` every entry is the result of
the MSB-first recurrence on the normal polynomial; entry 1 is then `poly`, and entry 128 of the reflected table is the
reversed polynomial. -/
def Obligations.TableAgreesWithTheMsbFirstForm : Prop :=
  ∀ (w : Width) (poly : Word w), (∀ i : Byte, tableEntry poly false i = directEntry poly i) ∧
    tableEntry poly false 1 = poly ∧ tableEntry poly true 128 = rev poly

/-- Linearity and the mirror relation of the table (41_table_generator.md section 1). -/
def Obligations.TableIsLinearAndMirrored : Prop :=
  ∀ (w : Width) (poly : Word w),
    (∀ (refin : Bool) (a b : Byte), tableEntry poly refin (a ^^^ b) = tableEntry poly refin a ^^^ tableEntry poly refin b) ∧
      ∀ i : Byte, tableEntry poly true i = rev (tableEntry poly false (rev i))

/-- 42_accumulator.md R141: one fold step, in both directions: the index is the low or the top byte of the register XOR
the byte, the register is shifted by 8 within `W` bits, and the entry is XORed in; with the examples of the rule. -/
def Obligations.FoldStepRule : Prop :=
  (∀ (w : Width) (r : Word w) (b : Byte) (T : Byte → Word w),
    foldByte true r b T = T (r.extractLsb' 0 8 ^^^ b) ^^^ (r >>> 8) ∧
    foldByte false r b T = T (r.extractLsb' (w.bits - 8) 8 ^^^ b) ^^^ (r <<< 8)) ∧
  (∀ (w : Width) (r : Word w), (∀ i < 8, (r <<< 8).getLsbD i = false) ∧
    ∀ i < w.bits, w.bits - 8 ≤ i → (r >>> 8).getLsbD i = false) ∧
  tableEntry 0x04C11DB7#32 true 0xCE = 0x7CDCEFB7#32 ∧
  foldByte true 0xFFFFFFFF#32 0x31 (tableEntry 0x04C11DB7#32 true) = 0x7C231048#32 ∧
  tableEntry 0x04C11DB7#32 false 0xCE = 0x61043093#32 ∧
  foldByte false 0xFFFFFFFF#32 0x31 (tableEntry 0x04C11DB7#32 false) = 0x9EFBCF93#32

/-- The fold is linear over XOR jointly in the register and the byte, and a byte can be XORed into the register before a
zero byte is folded instead (42_accumulator.md section 1). -/
def Obligations.FoldIsLinear : Prop :=
  ∀ (w : Width) (poly r r' : Word w) (b b' : Byte),
    (∀ refin : Bool, foldByte refin (r ^^^ r') (b ^^^ b') (tableEntry poly refin) =
      foldByte refin r b (tableEntry poly refin) ^^^ foldByte refin r' b' (tableEntry poly refin)) ∧
    foldByte true r b (tableEntry poly true) = foldByte true (r ^^^ b.setWidth w.bits) 0 (tableEntry poly true) ∧
    foldByte false r b (tableEntry poly false) =
      foldByte false (r ^^^ (b.setWidth w.bits <<< (w.bits - 8))) 0 (tableEntry poly false)

/-- The streaming law (42_accumulator.md section 1): folding a concatenation is folding its parts in order, through any
table. -/
def Obligations.FoldStreams : Prop :=
  ∀ (w : Width) (refin : Bool) (r : Word w) (a b : List Byte) (T : Byte → Word w),
    foldBytes refin r (a ++ b) T = foldBytes refin (foldBytes refin r a T) b T

/-! ### Composite operations and the residue round trip -/

/-- 42_accumulator.md R160: `UPDATEM m` folds the block into `REG` and does nothing else; for an empty block it issues no
command; a block in two parts is the same command sequence. -/
def Obligations.UpdatemFoldsTheBlock : Prop :=
  (∀ (s : State) (m : List Byte), s.Inv → s.configured = true →
    execComposite (.updatem m) s =
      .next (State.answers
        (s.withReg (foldBytes s.engine.refin s.engine.reg m (tableEntry s.engine.poly s.engine.refin)))
        (List.replicate m.length [0x00]))) ∧
  (∀ s : State, execComposite (.updatem []) s = .next s) ∧
  (∀ m : List Byte, expandComposite (.updatem m) = m.map Instr.update) ∧
  ∀ a b : List Byte,
    expandComposite (.updatem (a ++ b)) = expandComposite (.updatem a) ++ expandComposite (.updatem b)

/-- 42_accumulator.md R161: `CHECKSUM m` starts clean, whatever `REG` held, returns the finalised fold of `m`, and leaves
the accumulator at the end of `m`; with the three known answers of the rule for the parameter sets of
93_implementation_defined.md G3. -/
def Obligations.ChecksumOperation : Prop :=
  (∀ (s : State) (m : List Byte), s.Inv → s.configured = true → ∃ r : Word s.width,
    r = foldBytes s.engine.refin (initializeRegister s.engine.init s.engine.refin) m
      (tableEntry s.engine.poly s.engine.refin) ∧
    execComposite (.checksum m) s =
      .next ((s.withReg r).answers (List.replicate (m.length + 1) [0x00] ++
        [0x01 :: wordBytes (finalize s.engine.refin s.engine.refout s.engine.xorout r)]))) ∧
  (∀ m : List Byte, expandComposite (.checksum m) = Instr.init :: (m.map Instr.update ++ [Instr.rdsum])) ∧
  finalize true true 0xFFFFFFFF#32
    (foldBytes true 0xFFFFFFFF#32 checkMessage (tableEntry 0x04C11DB7#32 true)) = 0xCBF43926#32 ∧
  finalize false false 0xFFFFFFFF#32
    (foldBytes false 0xFFFFFFFF#32 checkMessage (tableEntry 0x04C11DB7#32 false)) = 0xFC891918#32 ∧
  finalize false false 0#32 (foldBytes false 0#32 checkMessage (tableEntry 0x000000AF#32 false)) = 0xBD0BE338#32

/-- 42_accumulator.md R158: sequencing is free. From a configured, freshly initialised engine every sequence of the
commands other than `CONFIG` and `CONFIGU` runs, none refused; `RDSUM` and `RDSUMB` then return the checksum of exactly the
bytes folded since the last `INIT` (or the start), `VERIFY` the residue check of those bytes; and a construction command
leaves such an engine. -/
def Obligations.SequencingIsFree : Prop :=
  (∀ (s : State) (l : List Instr) (order : Order), s.Inv → s.configured = true → s.fresh →
    modeOrder s.engine.mode = some order → (∀ i ∈ l, isConstruction i = false) →
    ∃ (r : Word s.width) (out : List (List Byte)),
      r = foldBytes s.engine.refin (initializeRegister s.engine.init s.engine.refin) (bytesSince l [])
        (tableEntry s.engine.poly s.engine.refin) ∧
      out.length = l.length ∧ [0x84] ∉ out ∧ execAll l s = .next ((s.withReg r).answers out) ∧
      ∀ t : State, t = (s.withReg r).answers out →
        exec .rdsum t = .next (t.answer (0x01 :: wordBytes
          (finalize s.engine.refin s.engine.refout s.engine.xorout r))) ∧
        exec .rdsumb t = .next (t.answer (0x02 :: toEndianBytes s.nativeOrder
          (finalize s.engine.refin s.engine.refout s.engine.xorout r) order)) ∧
        exec .verify t = .next (t.answer [0x03,
          if reflectConditionally s.engine.refin s.engine.refout r = s.engine.residue then 0x01 else 0x00])) ∧
  ∀ (s t : State) (i : Instr), s.Inv → isConstruction i = true → exec i s = .next t →
    t.responses = s.responses ++ [[0x00]] → t.Inv ∧ t.configured = true ∧ t.fresh

/-- 42_accumulator.md R162 and R164: `CHECKSUMB m` returns the serialised checksum of `m`, and `VERIFYM m` whether the fold
of `m`, reversed when exactly one flag is set, equals `RESIDUE`; both leave `REG` at the end of `m`. -/
def Obligations.ChecksumbAndVerifymOperations : Prop :=
  (∀ (s : State) (m : List Byte) (order : Order), s.Inv → s.configured = true →
    modeOrder s.engine.mode = some order → ∃ r : Word s.width,
    r = foldBytes s.engine.refin (initializeRegister s.engine.init s.engine.refin) m
      (tableEntry s.engine.poly s.engine.refin) ∧
    execComposite (.checksumb m) s =
      .next ((s.withReg r).answers (List.replicate (m.length + 1) [0x00] ++
        [0x02 :: toEndianBytes s.nativeOrder (finalize s.engine.refin s.engine.refout s.engine.xorout r) order])) ∧
    execComposite (.verifym m) s =
      .next ((s.withReg r).answers (List.replicate (m.length + 1) [0x00] ++
        [[0x03, if reflectConditionally s.engine.refin s.engine.refout r = s.engine.residue then 0x01 else 0x00]]))) ∧
  ∀ m : List Byte, expandComposite (.checksumb m) = Instr.init :: (m.map Instr.update ++ [Instr.rdsumb]) ∧
    expandComposite (.verifym m) = Instr.init :: (m.map Instr.update ++ [Instr.verify])

/-- The checksum is a CRC (42_accumulator.md section 1): for every configured engine and every message the value that
`CHECKSUM m` returns is the one of the conventional bit-serial procedure with the engine's parameters. That procedure is
R145's own check from general knowledge (93_implementation_defined.md G2), not a rule of the hardware. -/
def Obligations.ChecksumAgreesWithTheBitSerialCrc : Prop :=
  ∀ (s : State) (m : List Byte), s.Inv → s.configured = true → ∃ t,
    execComposite (.checksum m) s = .next t ∧
      t.responses.getLast? = some (0x01 :: wordBytes
        (bitSerialChecksum s.engine.poly s.engine.init s.engine.refin s.engine.refout s.engine.xorout m))

/-- The residue round trip (42_accumulator.md section 4): in a matched configuration, for every message `m`, with `c` the
bytes of `CHECKSUMB m`, the register after `m ++ c` is a constant that does not depend on `m` or on `INIT`, and
`VERIFYM (m ++ c)` answers true exactly when `RESIDUE` is the derived one. -/
def Obligations.MatchedResidueRoundTrip : Prop :=
  ∀ (s : State) (m : List Byte), s.Inv → s.configured = true → s.matchedOrder → ∃ (t u : State) (c : List Byte),
    execComposite (.checksumb m) s = .next t ∧ c.length = s.width.bits / 8 ∧
    t.responses.getLast? = some (0x02 :: c) ∧ execComposite (.verifym (m ++ c)) t = .next u ∧
    u.arch.reg = (foldBytes s.engine.refin s.engine.xorout (List.replicate (s.width.bits / 8) 0)
      (tableEntry s.engine.poly s.engine.refin)).toNat ∧
    (s.residueDerived → u.responses.getLast? = some [0x03, 0x01]) ∧
    (¬ s.residueDerived → u.responses.getLast? = some [0x03, 0x00])

/-- The empty message's round trip (41_table_generator.md section 2): with the derived residue the bytes of
`CHECKSUMB []` verify in every configuration, matched or not. -/
def Obligations.EmptyMessageRoundTrip : Prop :=
  ∀ s : State, s.Inv → s.configured = true → s.residueDerived → ∃ (t u : State) (c : List Byte),
    execComposite (.checksumb []) s = .next t ∧ t.responses.getLast? = some (0x02 :: c) ∧
    execComposite (.verifym c) t = .next u ∧ u.responses.getLast? = some [0x03, 0x01]

/-- The round trip is not unconditional (42_accumulator.md section 4; 90_conflicts.md C1): it fails for some message in
some configured engine with the derived residue; with the worked example. -/
def Obligations.RoundTripNeedsAMatchedOrder : Prop :=
  (¬ ∀ (s t u : State) (m c : List Byte), s.Inv → s.configured = true → s.residueDerived →
    execComposite (.checksumb m) s = .next t → t.responses.getLast? = some (0x02 :: c) →
    execComposite (.verifym (m ++ c)) t = .next u → u.responses.getLast? = some [0x03, 0x01]) ∧
  (∀ e : ByteEnd, toEndianBytes e 0xCBF43926#32 .big = [0xCB, 0xF4, 0x39, 0x26] ∧
    deriveResidue e .big 0x04C11DB7#32 0xFFFFFFFF#32 true true 0xFFFFFFFF#32 = 0xDEBB20E3#32) ∧
  foldBytes true 0xFFFFFFFF#32 (checkMessage ++ [0xCB, 0xF4, 0x39, 0x26]) (tableEntry 0x04C11DB7#32 true) =
    0xC3368BD3#32
end

