-- ==== Sys2Proof/Laws/Datapath.lean ====
section
/-! SUPPORT. The small lemmas of the datapath functions: what a bit of each result is, their unfolding
equations, and how a command's operands are assembled. -/

namespace Sys2Proof.Machine

variable {W : Nat}

theorem getLsbD_rev (v : BitVec W) (i : Nat) (h : i < W) : (rev v).getLsbD i = v.getLsbD (W - 1 - i) := by
  rw [rev, BitVec.getLsbD_reverse, BitVec.getMsbD]
  simp [h]

theorem getLsbD_byteAt (v : BitVec W) (k i : Nat) (h : i < 8) : (byteAt v k).getLsbD i = v.getLsbD (8 * k + i) := by
  simp [byteAt, h]

@[simp] theorem length_wordBytes (v : BitVec W) : (wordBytes v).length = numBytes W := by simp [wordBytes]

@[simp] theorem length_bytesFrom (v : BitVec W) (e : ByteEnd) : (bytesFrom v e).length = numBytes W := by
  cases e <;> simp [bytesFrom]

@[simp] theorem length_toEndianBytes (n : ByteEnd) (v : BitVec W) (o : Order) :
    (toEndianBytes n v o).length = numBytes W := length_bytesFrom v _

@[simp] theorem effective_big (n : ByteEnd) : effective n .big = .big := rfl
@[simp] theorem effective_little (n : ByteEnd) : effective n .little = .little := rfl
@[simp] theorem effective_native (n : ByteEnd) : effective n .native = n := rfl

@[simp] theorem initializeRegister_true (v : BitVec W) : initializeRegister v true = rev v := rfl
@[simp] theorem initializeRegister_false (v : BitVec W) : initializeRegister v false = v := rfl

@[simp] theorem shiftSteps_zero (c rp : BitVec W) : shiftSteps 0 c rp = c := rfl
theorem shiftSteps_succ (n : Nat) (c rp : BitVec W) : shiftSteps (n + 1) c rp = shiftSteps n (shiftStep c rp) rp := rfl

@[simp] theorem msbSteps_zero (poly d : BitVec W) : msbSteps poly 0 d = d := rfl
theorem msbSteps_succ (poly : BitVec W) (n : Nat) (d : BitVec W) :
    msbSteps poly (n + 1) d = msbSteps poly n (msbStep poly d) := rfl

@[simp] theorem foldBytes_nil (refin : Bool) (r : BitVec W) (T : Byte → BitVec W) : foldBytes refin r [] T = r := rfl
@[simp] theorem foldBytes_cons (refin : Bool) (r : BitVec W) (b : Byte) (m : List Byte) (T : Byte → BitVec W) :
    foldBytes refin r (b :: m) T = foldBytes refin (foldByte refin r b T) m T := rfl

/-- The `k`-th operand of a command string is assembled from the bytes that stand there, whatever stands around them. -/
theorem cmdWord_of_append {W : Nat} (opcode mode : Byte) (before o later : List Byte) (k : Nat)
    (hb : before.length = k * numBytes W) (ho : o.length = numBytes W) :
    cmdWord W (opcode :: mode :: (before ++ o ++ later)) k = wordOfBytes W o := by
  have h : opcode :: mode :: (before ++ o ++ later) = ([opcode, mode] ++ before) ++ (o ++ later) := by simp
  rw [cmdWord, h, List.drop_left' (by simp [hb]; omega), List.take_left' ho]

end Sys2Proof.Machine
end

