-- ==== Sys2Proof/Laws/Memory.lean ====
section
/-! SUPPORT. The laws of the table memory: a read after a write, the entries a configuration leaves, and that every
memory operation keeps the canonical form. -/

namespace Sys2Proof.Machine

variable {W : Nat}

@[simp] theorem Memory.lookup_nil (i : Nat) : Memory.lookup ([] : Memory W) i = none := rfl

@[simp] theorem Memory.read_nil (i : Byte) : Memory.read ([] : Memory W) i = none := rfl

theorem Memory.lookup_insert (m : Memory W) (i k : Nat) (v : BitVec W) :
    Memory.lookup (Memory.insert m i v) k = if i = k then some v else Memory.lookup m k := by
  induction m with
  | nil => simp [Memory.insert, Memory.lookup]
  | cons p rest ih =>
    obtain ⟨j, u⟩ := p
    simp only [Memory.insert]
    split
    · simp [Memory.lookup]
    · split
      · subst_vars
        simp only [Memory.lookup]
        split <;> rfl
      · simp only [Memory.lookup, ih]
        split
        · subst_vars
          rw [if_neg (by omega)]
        · rfl

@[simp] theorem Memory.read_write_self (m : Memory W) (i : Byte) (v : BitVec W) : (m.write i v).read i = some v := by
  simp [Memory.read, Memory.write, Memory.lookup_insert]

theorem Memory.read_write_of_ne (m : Memory W) {i j : Byte} (v : BitVec W) (h : i ≠ j) :
    (m.write i v).read j = m.read j := by
  have : i.toNat ≠ j.toNat := fun e => h (BitVec.eq_of_toNat_eq e)
  simp [Memory.read, Memory.write, Memory.lookup_insert, this]

/-- The writes of the indexes in `l`, highest first. -/
theorem Memory.read_writes (m : Memory W) (T : Byte → BitVec W) (l : List Nat) (i : Byte) :
    (l.foldr (fun k acc => Memory.write acc (BitVec.ofNat 8 k) (T (BitVec.ofNat 8 k))) m).read i =
      if i ∈ l.map (BitVec.ofNat 8) then some (T i) else m.read i := by
  induction l with
  | nil => simp
  | cons k l ih =>
    by_cases h : BitVec.ofNat 8 k = i
    · subst h
      simp
    · rw [List.foldr_cons, Memory.read_write_of_ne _ _ h, ih]
      have : i ≠ BitVec.ofNat 8 k := fun e => h e.symm
      simp [this]

theorem byte_mem_range (i : Byte) : i ∈ (List.range 256).map (BitVec.ofNat 8) :=
  List.mem_map.2 ⟨i.toNat, List.mem_range.2 i.isLt, by simp⟩

/-- After a configuration every entry is the generator's, whatever the table held (41_table_generator.md R115). -/
@[simp] theorem Memory.read_fill (m : Memory W) (T : Byte → BitVec W) (i : Byte) : (m.fill T).read i = some (T i) := by
  unfold Memory.fill
  exact (Memory.read_writes m T (List.range 256) i).trans (if_pos (byte_mem_range i))

/-- The indexes of a memory, in order. -/
abbrev Memory.indexes (m : Memory W) : List Nat := m.map Prod.fst

/-- The canonical form, as the rising order of the indexes and their bound. -/
theorem Memory.wf_iff (m : Memory W) :
    m.wf = true ↔ m.indexes.Pairwise (· < ·) ∧ ∀ j ∈ m.indexes, j < 256 := by
  induction m with
  | nil => simp [Memory.wf]
  | cons p rest ih =>
    obtain ⟨j, v⟩ := p
    unfold Memory.wf
    rw [Bool.and_eq_true, Bool.and_eq_true, ih]
    cases rest with
    | nil => simp
    | cons q rest =>
      obtain ⟨k, u⟩ := q
      simp only [decide_eq_true_eq, Memory.indexes, List.map_cons, List.pairwise_cons, List.mem_cons,
        forall_eq_or_imp]
      constructor
      · rintro ⟨⟨h1, h2⟩, ⟨h3, h4⟩, h5, h6⟩
        exact ⟨⟨⟨h2, fun a ha => lt_trans h2 (h3 a ha)⟩, h3, h4⟩, h1, h5, h6⟩
      · rintro ⟨⟨⟨h2, -⟩, h3, h4⟩, h1, h5, h6⟩
        exact ⟨⟨h1, h2⟩, ⟨h3, h4⟩, h5, h6⟩

theorem Memory.mem_indexes_insert (m : Memory W) (i k : Nat) (v : BitVec W) :
    k ∈ (Memory.insert m i v).indexes ↔ k = i ∨ k ∈ m.indexes := by
  induction m with
  | nil => simp [Memory.insert]
  | cons p rest ih =>
    obtain ⟨j, u⟩ := p
    simp only [Memory.insert]
    split
    · simp
    · split
      · subst_vars
        simp
      · simp only [Memory.indexes, List.map_cons, List.mem_cons] at ih ⊢
        rw [ih]
        tauto

theorem Memory.pairwise_insert (m : Memory W) (i : Nat) (v : BitVec W) (h : m.indexes.Pairwise (· < ·)) :
    (Memory.insert m i v).indexes.Pairwise (· < ·) := by
  induction m with
  | nil => simp [Memory.insert]
  | cons p rest ih =>
    obtain ⟨j, u⟩ := p
    simp only [Memory.indexes, List.map_cons, List.pairwise_cons] at h
    simp only [Memory.insert]
    split
    · rename_i hij
      simp only [Memory.indexes, List.map_cons, List.pairwise_cons, List.mem_cons, forall_eq_or_imp]
      exact ⟨⟨hij, fun a ha => lt_trans hij (h.1 a ha)⟩, h⟩
    · split
      · subst_vars
        simpa using h
      · simp only [Memory.indexes, List.map_cons, List.pairwise_cons]
        refine ⟨fun a ha => ?_, ih h.2⟩
        rcases (Memory.mem_indexes_insert rest i a v).1 ha with rfl | ha
        · omega
        · exact h.1 a ha

/-- `TableWrite` keeps the canonical form. -/
theorem Memory.wf_write (m : Memory W) (i : Byte) (v : BitVec W) (h : m.wf = true) : (m.write i v).wf = true := by
  rw [Memory.wf_iff] at h ⊢
  refine ⟨Memory.pairwise_insert m _ v h.1, fun j hj => ?_⟩
  rcases (Memory.mem_indexes_insert m _ j v).1 hj with rfl | hj
  · exact i.isLt
  · exact h.2 j hj

/-- A configuration keeps the canonical form. -/
theorem Memory.wf_fill (m : Memory W) (T : Byte → BitVec W) (h : m.wf = true) : (m.fill T).wf = true := by
  unfold Memory.fill
  induction List.range 256 with
  | nil => exact h
  | cons k l ih => exact Memory.wf_write _ _ _ ih

/-- The table memory of the reset state has the canonical form. -/
theorem reset_table_wf : Memory.wf State.reset.engine.table = true := rfl

/-- A canonical memory is determined by what its entries read as: equal memories are equal data. -/
theorem Memory.lookup_eq_none_of_lt (m : Memory W) (i : Nat) (h : ∀ j ∈ m.indexes, i < j) : m.lookup i = none := by
  induction m with
  | nil => rfl
  | cons p rest ih =>
    obtain ⟨j, v⟩ := p
    simp only [Memory.indexes, List.map_cons, List.mem_cons, forall_eq_or_imp] at h
    have hj : j ≠ i := by omega
    simp only [Memory.lookup, if_neg hj]
    exact ih h.2

theorem Memory.ext_of_lookup (m n : Memory W) (hm : m.indexes.Pairwise (· < ·)) (hn : n.indexes.Pairwise (· < ·))
    (h : ∀ i, m.lookup i = n.lookup i) : m = n := by
  induction m generalizing n with
  | nil =>
    cases n with
    | nil => rfl
    | cons q n =>
      have := h q.1
      simp [Memory.lookup] at this
  | cons p m ih =>
    obtain ⟨i, v⟩ := p
    cases n with
    | nil =>
      have := h i
      simp [Memory.lookup] at this
    | cons q n =>
      obtain ⟨j, u⟩ := q
      simp only [Memory.indexes, List.map_cons, List.pairwise_cons] at hm hn
      have hij : i = j := by
        rcases lt_trichotomy i j with hlt | heq | hgt
        · have h1 := h i
          have : Memory.lookup ((j, u) :: n) i = none :=
            Memory.lookup_eq_none_of_lt _ _ (by
              simp only [Memory.indexes, List.map_cons, List.mem_cons, forall_eq_or_imp]
              exact ⟨hlt, fun a ha => lt_trans hlt (hn.1 a ha)⟩)
          rw [this] at h1
          simp [Memory.lookup] at h1
        · exact heq
        · have h1 := h j
          have : Memory.lookup ((i, v) :: m) j = none :=
            Memory.lookup_eq_none_of_lt _ _ (by
              simp only [Memory.indexes, List.map_cons, List.mem_cons, forall_eq_or_imp]
              exact ⟨hgt, fun a ha => lt_trans hgt (hm.1 a ha)⟩)
          rw [this] at h1
          simp [Memory.lookup] at h1
      subst hij
      have hvu : v = u := by
        have := h i
        simpa [Memory.lookup] using this
      subst hvu
      have hrest : m = n := ih n hm.2 hn.2 fun k => by
        by_cases hk : i = k
        · subst hk
          rw [Memory.lookup_eq_none_of_lt m i hm.1, Memory.lookup_eq_none_of_lt n i hn.1]
        · simpa [Memory.lookup, hk] using h k
      rw [hrest]

theorem Memory.lookup_eq_none_of_ge (m : Memory W) (h : ∀ j ∈ m.indexes, j < 256) {i : Nat} (hi : 256 ≤ i) :
    m.lookup i = none := by
  induction m with
  | nil => rfl
  | cons p rest ih =>
    obtain ⟨j, v⟩ := p
    simp only [Memory.indexes, List.map_cons, List.mem_cons, forall_eq_or_imp] at h
    have hj : j ≠ i := by omega
    simp only [Memory.lookup, if_neg hj]
    exact ih h.2

/-- Equal memories are equal data: a canonical memory is determined by what its 256 entries read as. -/
theorem Memory.ext_of_read (m n : Memory W) (hm : m.wf = true) (hn : n.wf = true) (h : ∀ i, m.read i = n.read i) :
    m = n := by
  rw [Memory.wf_iff] at hm hn
  refine Memory.ext_of_lookup m n hm.1 hn.1 fun i => ?_
  by_cases hi : i < 256
  · have := h (BitVec.ofNat 8 i)
    simpa [Memory.read, Nat.mod_eq_of_lt hi] using this
  · rw [Memory.lookup_eq_none_of_ge m hm.2 (by omega), Memory.lookup_eq_none_of_ge n hn.2 (by omega)]

/-- A configuration's table does not depend on the table before it (10_state.md R26). -/
theorem Memory.fill_eq_fill (m n : Memory W) (T : Byte → BitVec W) (hm : m.wf = true) (hn : n.wf = true) :
    m.fill T = n.fill T :=
  Memory.ext_of_read _ _ (Memory.wf_fill m T hm) (Memory.wf_fill n T hn) fun i => by simp

end Sys2Proof.Machine
end

