-- ==== Sys2Proof/Laws/State.lean ====
section
/-! SUPPORT. One lemma per field per update of State, true by rfl, and the fields of the reset state. -/

namespace Sys2Proof.Machine

variable (s : State) {V : Nat}

@[simp] theorem respond_width (r : Response V) : (respond r s).width = s.width := rfl
@[simp] theorem respond_nativeOrder (r : Response V) : (respond r s).nativeOrder = s.nativeOrder := rfl
@[simp] theorem respond_engine (r : Response V) : (respond r s).engine = s.engine := rfl
@[simp] theorem respond_configured (r : Response V) : (respond r s).configured = s.configured := rfl
@[simp] theorem respond_inputs (r : Response V) : (respond r s).inputs = s.inputs := rfl
@[simp] theorem respond_resets (r : Response V) : (respond r s).resets = s.resets := rfl
@[simp] theorem respond_responses (r : Response V) :
    (respond r s).responses = s.responses ++ [encodeResponse r] := rfl

@[simp] theorem raiseError_width (c : ErrorCause) : (raiseError c s).width = s.width := rfl
@[simp] theorem raiseError_nativeOrder (c : ErrorCause) : (raiseError c s).nativeOrder = s.nativeOrder := rfl
@[simp] theorem raiseError_engine (c : ErrorCause) : (raiseError c s).engine = s.engine := rfl
@[simp] theorem raiseError_configured (c : ErrorCause) : (raiseError c s).configured = s.configured := rfl
@[simp] theorem raiseError_inputs (c : ErrorCause) : (raiseError c s).inputs = s.inputs := rfl
@[simp] theorem raiseError_resets (c : ErrorCause) : (raiseError c s).resets = s.resets := rfl
@[simp] theorem raiseError_responses (c : ErrorCause) :
    (raiseError c s).responses = s.responses ++ [[BitVec.ofNat 8 (0x80 + errorCode c)]] := rfl

@[simp] theorem withReg_width (v : BitVec s.width.bits) : (s.withReg v).width = s.width := rfl
@[simp] theorem withReg_nativeOrder (v : BitVec s.width.bits) : (s.withReg v).nativeOrder = s.nativeOrder := rfl
@[simp] theorem withReg_engine (v : BitVec s.width.bits) : (s.withReg v).engine = { s.engine with reg := v } := rfl
@[simp] theorem withReg_configured (v : BitVec s.width.bits) : (s.withReg v).configured = s.configured := rfl
@[simp] theorem withReg_inputs (v : BitVec s.width.bits) : (s.withReg v).inputs = s.inputs := rfl
@[simp] theorem withReg_responses (v : BitVec s.width.bits) : (s.withReg v).responses = s.responses := rfl
@[simp] theorem withReg_resets (v : BitVec s.width.bits) : (s.withReg v).resets = s.resets := rfl

@[simp] theorem installEngine_width (e : Engine s.width.bits) : (installEngine s e).width = s.width := rfl
@[simp] theorem installEngine_nativeOrder (e : Engine s.width.bits) :
    (installEngine s e).nativeOrder = s.nativeOrder := rfl
@[simp] theorem installEngine_engine (e : Engine s.width.bits) : (installEngine s e).engine = e := rfl
@[simp] theorem installEngine_configured (e : Engine s.width.bits) : (installEngine s e).configured = true := rfl
@[simp] theorem installEngine_inputs (e : Engine s.width.bits) : (installEngine s e).inputs = s.inputs := rfl
@[simp] theorem installEngine_responses (e : Engine s.width.bits) : (installEngine s e).responses = s.responses := rfl
@[simp] theorem installEngine_resets (e : Engine s.width.bits) : (installEngine s e).resets = s.resets := rfl

@[simp] theorem takeReset_width : (takeReset s).width = s.width := rfl
@[simp] theorem takeReset_nativeOrder : (takeReset s).nativeOrder = s.nativeOrder := rfl
@[simp] theorem takeReset_engine : (takeReset s).engine = Engine.unspecified s.width.bits (s.resets + 1) := rfl
@[simp] theorem takeReset_configured : (takeReset s).configured = false := rfl
@[simp] theorem takeReset_inputs : (takeReset s).inputs = s.inputs := rfl
@[simp] theorem takeReset_responses : (takeReset s).responses = s.responses := rfl
@[simp] theorem takeReset_resets : (takeReset s).resets = s.resets + 1 := rfl

@[simp] theorem present_width (c : List Byte) : (present c s).width = s.width := rfl
@[simp] theorem present_nativeOrder (c : List Byte) : (present c s).nativeOrder = s.nativeOrder := rfl
@[simp] theorem present_engine (c : List Byte) : (present c s).engine = s.engine := rfl
@[simp] theorem present_configured (c : List Byte) : (present c s).configured = s.configured := rfl
@[simp] theorem present_inputs (c : List Byte) : (present c s).inputs = .command c :: s.inputs := rfl
@[simp] theorem present_responses (c : List Byte) : (present c s).responses = s.responses := rfl
@[simp] theorem present_resets (c : List Byte) : (present c s).resets = s.resets := rfl

variable {W : Nat} (m : Memory W) (mode : Byte) (poly init xorout residue : BitVec W)

@[simp] theorem newEngine_poly : (newEngine m mode poly init xorout residue).poly = poly := rfl
@[simp] theorem newEngine_init : (newEngine m mode poly init xorout residue).init = init := rfl
@[simp] theorem newEngine_xorout : (newEngine m mode poly init xorout residue).xorout = xorout := rfl
@[simp] theorem newEngine_residue : (newEngine m mode poly init xorout residue).residue = residue := rfl
@[simp] theorem newEngine_mode : (newEngine m mode poly init xorout residue).mode = mode := rfl
@[simp] theorem newEngine_table :
    (newEngine m mode poly init xorout residue).table = m.fill (tableEntry poly (modeRefin mode)) := by
  simp only [newEngine]
@[simp] theorem newEngine_reg :
    (newEngine m mode poly init xorout residue).reg = initializeRegister init (modeRefin mode) := rfl

@[simp] theorem unspecified_table (n : Nat) : (Engine.unspecified W n).table = [] := rfl

variable (w : Width) (e : ByteEnd)

@[simp] theorem resetOf_width : (State.resetOf w e).width = w := rfl
@[simp] theorem resetOf_nativeOrder : (State.resetOf w e).nativeOrder = e := rfl
@[simp] theorem resetOf_engine : (State.resetOf w e).engine = Engine.unspecified w.bits 0 := rfl
@[simp] theorem resetOf_configured : (State.resetOf w e).configured = false := rfl
@[simp] theorem resetOf_inputs : (State.resetOf w e).inputs = [] := rfl
@[simp] theorem resetOf_responses : (State.resetOf w e).responses = [] := rfl
@[simp] theorem resetOf_resets : (State.resetOf w e).resets = 0 := rfl

end Sys2Proof.Machine
end

