-- ==== Sys2Proof/Laws/Ops.lean ====
section
/-! SUPPORT. What each shared operation and each command can answer, said once: the lemmas to cite instead of
unfolding a meaning. -/

namespace Sys2Proof.Machine

variable {s t : State}

theorem whenConfigured_of_true (k : Result) (h : s.configured = true) : whenConfigured s k = k := by
  simp [whenConfigured, h]

theorem whenConfigured_of_false (k : Result) (h : s.configured = false) :
    whenConfigured s k = .next (raiseError .notConfigured s) := by
  simp [whenConfigured, h]

/-- A gated command answers next in two ways: refused as not configured, or by its own effect. -/
theorem whenConfigured_next {k : Result} (h : whenConfigured s k = .next t) :
    (s.configured = false ∧ t = raiseError .notConfigured s) ∨ (s.configured = true ∧ k = .next t) := by
  cases hc : s.configured with
  | false =>
    rw [whenConfigured_of_false k hc] at h
    exact .inl ⟨rfl, (Host.Outcome.next.inj h).symm⟩
  | true =>
    rw [whenConfigured_of_true k hc] at h
    exact .inr ⟨rfl, h⟩

theorem readTable_of_some {i : Byte} {v : BitVec s.width.bits} (k : BitVec s.width.bits → Result)
    (h : s.engine.table.read i = some v) : readTable s i k = k v := by
  simp [readTable, h]

/-- A table access answers next only through an entry that holds a value. -/
theorem readTable_next {i : Byte} {k : BitVec s.width.bits → Result} (h : readTable s i k = .next t) :
    ∃ v, s.engine.table.read i = some v ∧ k v = .next t := by
  unfold readTable at h
  split at h
  · exact ⟨_, ‹_›, h⟩
  · cases h

section Mode

variable {mode : Byte} {f : ModeFields}

/-- The fields of a mode byte are there exactly when it is legal, and are the bits of 10_state.md R25. -/
theorem modeFields_eq_some : modeFields mode = some f ↔
    modeLegal mode = true ∧ modeOrder mode = some f.order ∧ f.refin = modeRefin mode ∧ f.refout = modeRefout mode := by
  unfold modeFields
  split
  · rename_i h
    rw [Option.map_eq_some_iff]
    constructor
    · rintro ⟨o, ho, rfl⟩
      exact ⟨h, ho, rfl, rfl⟩
    · rintro ⟨-, ho, h1, h2⟩
      refine ⟨f.order, ho, ?_⟩
      rw [← h1, ← h2]
  · rename_i h
    simp [h]

theorem modeFields_eq_none : modeFields mode = none ↔ modeLegal mode = false := by
  unfold modeFields
  split
  · rename_i h
    have : (modeOrder mode).isSome = true := by
      unfold modeLegal at h
      exact (Bool.and_eq_true_iff.1 h).2
    obtain ⟨o, ho⟩ := Option.isSome_iff_exists.1 this
    simp [ho, h]
  · rename_i h
    simp [h]

/-- A legal mode byte has an order. -/
theorem modeOrder_of_modeLegal (h : modeLegal mode = true) : ∃ o, modeOrder mode = some o := by
  unfold modeLegal at h
  exact Option.isSome_iff_exists.1 (Bool.and_eq_true_iff.1 h).2

end Mode

section Construct

variable {w : Width} {mode : Byte} {poly init xorout : Word w} {residue : ModeFields → Word w}

/-- A construction command never stops: it installs a new engine, refuses a reserved mode, or refuses operands of
another width. -/
theorem construct_next (h : construct w mode poly init xorout residue s = .next t) :
    (w = s.width ∧ ∃ f, modeFields mode = some f ∧
      t = respond (W := s.width.bits) .ack (installEngine s (newEngine s.engine.table mode (poly.setWidth _)
        (init.setWidth _) (xorout.setWidth _) ((residue f).setWidth _)))) ∨
    (w = s.width ∧ modeFields mode = none ∧ t = raiseError .reservedField s) ∨
    (w ≠ s.width ∧ t = raiseError .badLength s) := by
  unfold construct at h
  split at h
  · rename_i hw
    split at h
    · rename_i f hf
      exact .inl ⟨hw, f, hf, (Host.Outcome.next.inj h).symm⟩
    · exact .inr (.inl ⟨hw, ‹_›, (Host.Outcome.next.inj h).symm⟩)
  · exact .inr (.inr ⟨‹_›, (Host.Outcome.next.inj h).symm⟩)

end Construct

section SameWidth

variable {mode : Byte} {f : ModeFields}

/-- A construction command with operands of the instance's width and a legal mode installs the new engine. -/
theorem construct_of_fields (poly init xorout : Word s.width) (residue : ModeFields → Word s.width)
    (h : modeFields mode = some f) :
    construct s.width mode poly init xorout residue s =
      .next (respond (W := s.width.bits) .ack
        (installEngine s (newEngine s.engine.table mode poly init xorout (residue f)))) := by
  simp [construct, h]

/-- A construction command with a reserved mode is refused. -/
theorem construct_of_reserved (poly init xorout : Word s.width) (residue : ModeFields → Word s.width)
    (h : modeFields mode = none) :
    construct s.width mode poly init xorout residue s = .next (raiseError .reservedField s) := by
  simp [construct, h]

end SameWidth

/-- `INIT` answers next in two ways. -/
theorem execInit_next (h : execInit s = .next t) :
    (s.configured = false ∧ t = raiseError .notConfigured s) ∨
    (s.configured = true ∧ t = respond (W := s.width.bits) .ack (s.withReg (initializeRegister s.engine.init s.engine.refin))) := by
  rcases whenConfigured_next h with h | ⟨hc, h⟩
  · exact .inl h
  · exact .inr ⟨hc, (Host.Outcome.next.inj h).symm⟩

/-- `UPDATE` answers next in two ways. -/
theorem execUpdate_next {b : Byte} (h : execUpdate b s = .next t) :
    (s.configured = false ∧ t = raiseError .notConfigured s) ∨
    (s.configured = true ∧ ∃ v, s.engine.table.read (foldIndex s.engine.refin s.engine.reg b) = some v ∧
      t = respond (W := s.width.bits) .ack (s.withReg (foldStep s.engine.refin s.engine.reg v))) := by
  rcases whenConfigured_next h with h | ⟨hc, h⟩
  · exact .inl h
  · obtain ⟨v, hv, h⟩ := readTable_next h
    exact .inr ⟨hc, v, hv, (Host.Outcome.next.inj h).symm⟩

/-- `RDSUM` answers next in two ways. -/
theorem execRdsum_next (h : execRdsum s = .next t) :
    (s.configured = false ∧ t = raiseError .notConfigured s) ∨
    (s.configured = true ∧ t = respond (.val s.engine.checksum) s) := by
  rcases whenConfigured_next h with h | ⟨hc, h⟩
  · exact .inl h
  · exact .inr ⟨hc, (Host.Outcome.next.inj h).symm⟩

/-- `RDSUMB` answers next in two ways. -/
theorem execRdsumb_next (h : execRdsumb s = .next t) :
    (s.configured = false ∧ t = raiseError .notConfigured s) ∨
    (s.configured = true ∧ ∃ o, modeOrder s.engine.mode = some o ∧
      t = respond (W := s.width.bits) (.bytes (toEndianBytes s.nativeOrder s.engine.checksum o)) s) := by
  rcases whenConfigured_next h with h | ⟨hc, h⟩
  · exact .inl h
  · split at h
    · exact .inr ⟨hc, _, ‹_›, (Host.Outcome.next.inj h).symm⟩
    · cases h

/-- `VERIFY` answers next in two ways. -/
theorem execVerify_next (h : execVerify s = .next t) :
    (s.configured = false ∧ t = raiseError .notConfigured s) ∨
    (s.configured = true ∧ t = respond (W := s.width.bits) (.bool s.engine.verifies) s) := by
  rcases whenConfigured_next h with h | ⟨hc, h⟩
  · exact .inl h
  · exact .inr ⟨hc, (Host.Outcome.next.inj h).symm⟩

/-- `RDTABLE` answers next in two ways. -/
theorem execRdtable_next {i : Byte} (h : execRdtable i s = .next t) :
    (s.configured = false ∧ t = raiseError .notConfigured s) ∨
    (s.configured = true ∧ ∃ v, s.engine.table.read i = some v ∧ t = respond (.val v) s) := by
  rcases whenConfigured_next h with h | ⟨hc, h⟩
  · exact .inl h
  · obtain ⟨v, hv, h⟩ := readTable_next h
    exact .inr ⟨hc, v, hv, (Host.Outcome.next.inj h).symm⟩

/-- `RDRES` answers next in two ways. -/
theorem execRdres_next (h : execRdres s = .next t) :
    (s.configured = false ∧ t = raiseError .notConfigured s) ∨
    (s.configured = true ∧ t = respond (.val s.engine.residue) s) := by
  rcases whenConfigured_next h with h | ⟨hc, h⟩
  · exact .inl h
  · exact .inr ⟨hc, (Host.Outcome.next.inj h).symm⟩

/-- A step takes the next input and does what it asks, or does nothing when there is none. -/
theorem step_cases (h : step s = .next t) :
    (s.inputs = [] ∧ t = s) ∨
    (∃ rest, s.inputs = .reset :: rest ∧ t = takeReset { s with inputs := rest }) ∨
    (∃ c rest i, s.inputs = .command c :: rest ∧ decode s.width c = .ok i ∧
      exec i { s with inputs := rest } = .next t) ∨
    (∃ c rest cause, s.inputs = .command c :: rest ∧ decode s.width c = .error cause ∧
      t = raiseError cause { s with inputs := rest }) := by
  cases hi : s.inputs with
  | nil =>
    simp only [step, takeInput, hi, Host.Outcome.next.injEq] at h
    exact .inl ⟨rfl, h.symm⟩
  | cons x rest =>
    cases x with
    | reset =>
      simp only [step, takeInput, hi, Host.Outcome.next.injEq] at h
      exact .inr (.inl ⟨rest, rfl, h.symm⟩)
    | command c =>
      simp only [step, takeInput, hi] at h
      split at h
      · rename_i i hd
        exact .inr (.inr (.inl ⟨c, rest, i, rfl, hd, h⟩))
      · rename_i cause hd
        exact .inr (.inr (.inr ⟨c, rest, cause, rfl, hd, (Host.Outcome.next.inj h).symm⟩))

end Sys2Proof.Machine
end

