-- ==== Sys2Proof/Laws/Inv.lean ====
section
/-! SUPPORT. The updates that statements name, field by field, and the invariant and the architectural view through the
shared operations. -/

namespace Sys2Proof.Machine

section Updates

variable (s : State)

@[simp] theorem answer_width (r : List Byte) : (s.answer r).width = s.width := rfl
@[simp] theorem answer_nativeOrder (r : List Byte) : (s.answer r).nativeOrder = s.nativeOrder := rfl
@[simp] theorem answer_engine (r : List Byte) : (s.answer r).engine = s.engine := rfl
@[simp] theorem answer_configured (r : List Byte) : (s.answer r).configured = s.configured := rfl
@[simp] theorem answer_inputs (r : List Byte) : (s.answer r).inputs = s.inputs := rfl
@[simp] theorem answer_resets (r : List Byte) : (s.answer r).resets = s.resets := rfl

@[simp] theorem answers_width (l : List (List Byte)) : (s.answers l).width = s.width := rfl
@[simp] theorem answers_nativeOrder (l : List (List Byte)) : (s.answers l).nativeOrder = s.nativeOrder := rfl
@[simp] theorem answers_engine (l : List (List Byte)) : (s.answers l).engine = s.engine := rfl
@[simp] theorem answers_configured (l : List (List Byte)) : (s.answers l).configured = s.configured := rfl
@[simp] theorem answers_inputs (l : List (List Byte)) : (s.answers l).inputs = s.inputs := rfl
@[simp] theorem answers_resets (l : List (List Byte)) : (s.answers l).resets = s.resets := rfl

@[simp] theorem answer_responses (r : List Byte) : (s.answer r).responses = s.responses ++ [r] := rfl
@[simp] theorem answers_responses (l : List (List Byte)) : (s.answers l).responses = s.responses ++ l := rfl

@[simp] theorem withMode_width (m : Byte) : (s.withMode m).width = s.width := rfl
@[simp] theorem withMode_nativeOrder (m : Byte) : (s.withMode m).nativeOrder = s.nativeOrder := rfl
@[simp] theorem withMode_configured (m : Byte) : (s.withMode m).configured = s.configured := rfl
@[simp] theorem withMode_inputs (m : Byte) : (s.withMode m).inputs = s.inputs := rfl
@[simp] theorem withMode_responses (m : Byte) : (s.withMode m).responses = s.responses := rfl
@[simp] theorem withMode_resets (m : Byte) : (s.withMode m).resets = s.resets := rfl
@[simp] theorem withMode_engine (m : Byte) : (s.withMode m).engine = { s.engine with mode := m } := rfl

@[simp] theorem withResidue_width (r : BitVec s.width.bits) : (s.withResidue r).width = s.width := rfl
@[simp] theorem withResidue_nativeOrder (r : BitVec s.width.bits) : (s.withResidue r).nativeOrder = s.nativeOrder := rfl
@[simp] theorem withResidue_configured (r : BitVec s.width.bits) : (s.withResidue r).configured = s.configured := rfl
@[simp] theorem withResidue_inputs (r : BitVec s.width.bits) : (s.withResidue r).inputs = s.inputs := rfl
@[simp] theorem withResidue_responses (r : BitVec s.width.bits) : (s.withResidue r).responses = s.responses := rfl
@[simp] theorem withResidue_resets (r : BitVec s.width.bits) : (s.withResidue r).resets = s.resets := rfl
@[simp] theorem withResidue_engine (r : BitVec s.width.bits) : (s.withResidue r).engine = { s.engine with residue := r } := rfl

end Updates

variable {s t : State}

/-- What a construction command installs satisfies the invariant. -/
theorem inv_installEngine {mode : Byte} {poly init xorout residue : BitVec s.width.bits}
    (hwf : s.engine.table.wf = true) (hm : modeLegal mode = true) :
    (installEngine s (newEngine s.engine.table mode poly init xorout residue)).Inv := by
  refine ⟨?_, fun _ => ⟨hm, fun i => ?_⟩⟩
  · exact Memory.wf_fill _ _ hwf
  · simp [Engine.refin]

/-- The invariant does not look at the responses. -/
theorem inv_respond {W : Nat} {r : Response W} : (respond r s).Inv ↔ s.Inv := Iff.rfl

/-- The invariant does not look at what the host presents. -/
theorem inv_inputs {l : List HostInput} : ({ s with inputs := l } : State).Inv ↔ s.Inv := Iff.rfl

/-- The invariant does not look at the accumulator. -/
theorem inv_withReg {v : BitVec s.width.bits} : (s.withReg v).Inv ↔ s.Inv := Iff.rfl

/-- What the reset event leaves satisfies the invariant. -/
theorem inv_takeReset : (takeReset s).Inv := ⟨rfl, fun h => by simp at h⟩

/-- Two states with the same architectural view differ in the interface alone. -/
theorem eq_of_arch_eq (h : s.arch = t.arch) :
    t = { s with inputs := t.inputs, responses := t.responses, resets := t.resets } := by
  obtain ⟨w, n, ⟨p, i, x, r, m, tb, g⟩, c, ins, rs, k⟩ := s
  obtain ⟨w', n', ⟨p', i', x', r', m', tb', g'⟩, c', ins', rs', k'⟩ := t
  simp only [State.arch, ArchView.mk.injEq] at h
  obtain ⟨rfl, rfl, rfl, h1, h2, h3, h4, rfl, h5, h6⟩ := h
  have h1 := BitVec.eq_of_toNat_eq h1
  have h2 := BitVec.eq_of_toNat_eq h2
  have h3 := BitVec.eq_of_toNat_eq h3
  have h4 := BitVec.eq_of_toNat_eq h4
  have h5 := BitVec.eq_of_toNat_eq h5
  subst h1 h2 h3 h4 h5
  have h6 : tb = tb' := by
    refine List.map_injective_iff.2 ?_ h6
    rintro ⟨a, b⟩ ⟨c, d⟩ h
    simp only [Prod.mk.injEq] at h
    exact Prod.ext h.1 (BitVec.eq_of_toNat_eq h.2)
  subst h6
  rfl

end Sys2Proof.Machine
end

