-- ==== Sys2Proof/Laws/PerInstr.lean ====
section
/-! SUPPORT. Facts about every instruction as syntax, one lemma per constructor: the encoding of a well-formed
command has exactly the length its opcode and the instance's width fix (30_encoding.md R61, R72). -/

namespace Sys2Proof.Laws.EncodingLength

open Sys2Proof.Machine

def Statement (i : Instr) : Prop :=
  ∀ w : Width, wellFormed w i = true → (encode i).length = opcodeLength w.bits (instrOpcode i)

theorem config (w : Width) (mode : Byte) (poly init xorout : Word w) : Statement (.config w mode poly init xorout) := by
  intro w' h
  simp only [wellFormed, Bool.and_eq_true, decide_eq_true_eq] at h
  obtain ⟨rfl, -⟩ := h
  simp only [encode, encodeOperands, instrOpcode, opcodeLength, opcodeFormat, formatLength, List.length_cons,
    List.length_append, length_wordBytes]
  omega

theorem configu (w : Width) (mode : Byte) (poly init xorout residue : Word w) :
    Statement (.configu w mode poly init xorout residue) := by
  intro w' h
  simp only [wellFormed, Bool.and_eq_true, decide_eq_true_eq] at h
  obtain ⟨rfl, -⟩ := h
  simp only [encode, encodeOperands, instrOpcode, opcodeLength, opcodeFormat, formatLength, List.length_cons,
    List.length_append, length_wordBytes]
  omega

theorem init : Statement .init := fun _ _ => rfl
theorem update (imm8 : Byte) : Statement (.update imm8) := fun _ _ => rfl
theorem rdsum : Statement .rdsum := fun _ _ => rfl
theorem rdsumb : Statement .rdsumb := fun _ _ => rfl
theorem verify : Statement .verify := fun _ _ => rfl
theorem rdtable (imm8 : Byte) : Statement (.rdtable imm8) := fun _ _ => rfl
theorem rdres : Statement .rdres := fun _ _ => rfl

end Sys2Proof.Laws.EncodingLength
end

