-- ==== Sys2Proof/Tests/Slice0.lean ====
section
/-! SUPPORT. The model's own tests. Expected values are those of the spec's vectors (95_test_vectors.md,
96_golden_tables.md) or of the rule named; `witness_*` shows, for each statement with hypotheses, states and operands
that meet them. -/

namespace Sys2Proof.Tests

open Sys2Proof Sys2Proof.Machine

-- One after the other: elaborated at once, the kernel evaluations below need more threads than the sandbox allows.
set_option Elab.async false

/-! ### States to test on -/

/-- The state of an answer, if it is a next state. -/
def after : Result → Option State
  | .next t => some t
  | .fault _ => none
  | .refused _ => none

/-- The last response of an answer. -/
def lastResponse (r : Result) : Option (List Byte) := (after r).bind fun t => t.responses.getLast?

/-- `REG` after an answer. -/
def regAfter (r : Result) : Option Nat := (after r).map fun t => t.arch.reg

/-- A configured 32-bit instance with the polynomial, `init` and `xorout` of CRC-32. -/
def crc32 (e : ByteEnd) (mode : Byte) (residue : BitVec 32) : State where
  width := .w32
  nativeOrder := e
  engine := newEngine (W := 32) [] mode 0x04C11DB7 0xFFFFFFFF 0xFFFFFFFF residue
  configured := true
  inputs := []
  responses := []
  resets := 0

/-- CRC-32/ISO-HDLC with `Little` (95 section 1). -/
def iso : State := crc32 .little 0x07 0xDEBB20E3

/-- CRC-32/BZIP2 with `Big` (95 section 1). -/
def bzip2 : State := crc32 .big 0x00 0xC704DD7B

/-- ISO-HDLC after the nine bytes (95 section 7). -/
def isoEnd : State := iso.withReg 0x340BC6D9

/-- An instance just after reset. -/
def blank (w : Width) : State := State.resetOf w .big

/-- A state with no table entry but the flag set: a state no run reaches. -/
def hollow (mode : Byte) : State :=
  { iso with engine := { iso.engine with table := ([] : Memory 32), mode := mode } }

theorem crc32_inv (e : ByteEnd) (mode : Byte) (residue : BitVec 32) (h : modeLegal mode = true) :
    (crc32 e mode residue).Inv :=
  ⟨Memory.wf_fill _ _ rfl, fun _ => ⟨h, fun i => Memory.read_fill _ _ i⟩⟩

theorem iso_inv : iso.Inv := crc32_inv _ _ _ (by decide)
theorem bzip2_inv : bzip2.Inv := crc32_inv _ _ _ (by decide)

/-! ### WellFormed: an ill-formed term for each check -/

theorem test_wellFormed_config : wellFormed .w32 (.config .w32 0x0B 0x04C11DB7#32 0#32 0#32) = true := by decide
theorem test_illFormed_config_width : wellFormed .w16 (.config .w32 0x07 0#32 0#32 0#32) = false := by decide
theorem test_illFormed_config_high_bits : wellFormed .w32 (.config .w32 0x10 0#32 0#32 0#32) = false := by decide
theorem test_illFormed_config_order : wellFormed .w32 (.config .w32 0x0C 0#32 0#32 0#32) = false := by decide
theorem test_illFormed_configu_width : wellFormed .w64 (.configu .w16 0x00 0#16 0#16 0#16 0#16) = false := by decide
theorem test_illFormed_configu_high_bits : wellFormed .w16 (.configu .w16 0x80 0#16 0#16 0#16 0#16) = false := by
  decide
theorem test_illFormed_configu_order : wellFormed .w16 (.configu .w16 0x0F 0#16 0#16 0#16 0#16) = false := by decide

/-! ### Decoding: strings of 95 section 7 -/

theorem test_decode_config16 : decode .w16 [0x01, 0x07, 0x80, 0x05, 0x00, 0x00, 0x00, 0x00] =
    .ok (.config .w16 0x07 0x8005#16 0#16 0#16) := by decide +kernel
theorem test_decode_config32 :
    decode .w32 [0x01, 0x0B, 0x04, 0xC1, 0x1D, 0xB7, 0xFF, 0xFF, 0xFF, 0xFF, 0xFF, 0xFF, 0xFF, 0xFF] =
      .ok (.config .w32 0x0B 0x04C11DB7#32 0xFFFFFFFF#32 0xFFFFFFFF#32) := by decide +kernel
theorem test_decode_config64 :
    decode .w64 ([0x01, 0x07, 0x42, 0xF0, 0xE1, 0xEB, 0xA9, 0xEA, 0x36, 0x93] ++ List.replicate 16 0xFF) =
      .ok (.config .w64 0x07 0x42F0E1EBA9EA3693#64 (BitVec.allOnes 64) (BitVec.allOnes 64)) := by decide +kernel
theorem test_decode_config128 :
    decode .w128 ([0x01, 0x00, 0x01, 0x23, 0x45, 0x67, 0x89, 0xAB, 0xCD, 0xEF, 0xFE, 0xDC, 0xBA, 0x98, 0x76, 0x54,
      0x32, 0x11] ++ List.replicate 32 0x00) =
      .ok (.config .w128 0x00 0x0123456789ABCDEFFEDCBA9876543211#128 0#128 0#128) := by decide +kernel
theorem test_decode_configu32 :
    decode .w32 [0x02, 0x07, 0x04, 0xC1, 0x1D, 0xB7, 0xFF, 0xFF, 0xFF, 0xFF, 0xFF, 0xFF, 0xFF, 0xFF, 0xDE, 0xBB, 0x20,
      0xE3] = .ok (.configu .w32 0x07 0x04C11DB7#32 0xFFFFFFFF#32 0xFFFFFFFF#32 0xDEBB20E3#32) := by decide +kernel
theorem test_decode_init : decode .w32 [0x10] = .ok .init := by decide
theorem test_decode_update : decode .w32 [0x11, 0x31] = .ok (.update 0x31) := by decide
theorem test_decode_rdsum : decode .w32 [0x20] = .ok .rdsum := by decide
theorem test_decode_rdsumb : decode .w32 [0x21] = .ok .rdsumb := by decide
theorem test_decode_verify : decode .w32 [0x22] = .ok .verify := by decide
theorem test_decode_rdtable : decode .w32 [0x30, 0x80] = .ok (.rdtable 0x80) := by decide
theorem test_decode_rdres : decode .w32 [0x31] = .ok .rdres := by decide

/-- The operands are read at their own places: four different values. -/
theorem test_decode_operand_places : decode .w16 [0x02, 0x06, 0x11, 0x22, 0x33, 0x44, 0x55, 0x66, 0x77, 0x88] =
    .ok (.configu .w16 0x06 0x1122#16 0x3344#16 0x5566#16 0x7788#16) := by decide +kernel

/-- The error strings of 95 section 7 that no state decides. -/
theorem test_decode_errors :
    decode .w32 [] = .error .badLength ∧ decode .w32 [0x00] = .error .illegalOpcode ∧
      decode .w32 [0x00, 0x00] = .error .illegalOpcode ∧ decode .w32 [0xFF] = .error .illegalOpcode ∧
      decode .w32 [0x12] = .error .illegalOpcode ∧ decode .w32 [0x11] = .error .badLength ∧
      decode .w32 [0x11, 0x31, 0x32] = .error .badLength ∧ decode .w32 [0x10, 0x00] = .error .badLength ∧
      decode .w32 [0x01, 0xFF, 0x04, 0xC1] = .error .badLength := by decide +kernel
theorem test_decode_config_errors :
    decode .w32 [0x01, 0x07, 0x04, 0xC1, 0x1D, 0xB7, 0xFF, 0xFF, 0xFF, 0xFF, 0xFF, 0xFF, 0xFF] = .error .badLength ∧
      decode .w16 [0x01, 0x07, 0x04, 0xC1, 0x1D, 0xB7, 0xFF, 0xFF, 0xFF, 0xFF, 0xFF, 0xFF, 0xFF, 0xFF] =
        .error .badLength ∧
      decode .w32 [0x01, 0x0C, 0x04, 0xC1, 0x1D, 0xB7, 0xFF, 0xFF, 0xFF, 0xFF, 0xFF, 0xFF, 0xFF, 0xFF] =
        .error .reservedField ∧
      decode .w32 [0x01, 0x17, 0x04, 0xC1, 0x1D, 0xB7, 0xFF, 0xFF, 0xFF, 0xFF, 0xFF, 0xFF, 0xFF, 0xFF] =
        .error .reservedField := by decide +kernel

/-- The twelve legal mode bytes, in the order of 95 section 7. -/
theorem test_mode_bytes : ([Order.big, .little, .native].flatMap fun o =>
    [modePack ⟨false, false, o⟩, modePack ⟨true, false, o⟩, modePack ⟨false, true, o⟩, modePack ⟨true, true, o⟩]) =
      [0x00, 0x01, 0x02, 0x03, 0x04, 0x05, 0x06, 0x07, 0x08, 0x09, 0x0A, 0x0B] := by decide

/-- A table word: `30 80` with `c[0]` in bits 7:0 (log 14). -/
theorem test_tableWord : decodeTableWord 16 0x8030 = some (.rdtable 0x80) := by decide +kernel

/-- The step from reset takes the word's command (30_encoding.md R68, R69): `INIT` is refused before configuration,
and `CONFIG` with zero operands is accepted. -/
theorem test_fetchWord_init : lastResponse (step (State.reset.withFetchWord 8 0x10)) = some [0x84] := by decide +kernel
theorem test_fetchWord_config : lastResponse (step (State.reset.withFetchWord 16 0x0001)) = some [0x00] := by
  decide +kernel

/-! ### The datapath: 95 sections 2 to 5, 96 part 1 -/

theorem test_rev : rev 0x31#8 = 0x8C#8 ∧ rev 0x8005#16 = 0xA001#16 ∧ rev 0x12345678#32 = 0x1E6A2C48#32 ∧
    rev 0x42F0E1EBA9EA3693#64 = 0xC96C5795D7870F42#64 ∧
    rev 0x0123456789ABCDEFFEDCBA9876543211#128 = 0x884C2A6E195D3B7FF7B3D591E6A2C480#128 := by decide +kernel
theorem test_initializeRegister : initializeRegister 0x1D0F#16 true = 0xF0B8#16 ∧
    initializeRegister 0x1D0F#16 false = 0x1D0F#16 := by decide +kernel
theorem test_finalize : finalize false true 0x00FF#16 0x1234#16 = 0x2CB7#16 ∧
    finalize true true 0x00FF#16 0x1234#16 = 0x12CB#16 ∧ finalize false true 0x0000FFFF#32 0x80000000#32 = 0x0000FFFE#32 ∧
    finalize true false 0x0001#16 0x8408#16 = 0x1020#16 := by decide +kernel
theorem test_toEndianBytes : toEndianBytes .big 0x31C3#16 .little = [0xC3, 0x31] ∧
    toEndianBytes .little 0x31C3#16 .big = [0x31, 0xC3] ∧ toEndianBytes .little 0x00000001#32 .native = [1, 0, 0, 0] ∧
    toEndianBytes .big 0x00000001#32 .native = [0, 0, 0, 1] := by decide +kernel
theorem test_table_reflected : ([0, 1, 2, 128, 255].map (tableEntry 0x04C11DB7#32 true)) =
    [0x00000000, 0x77073096, 0xEE0E612C, 0xEDB88320, 0x2D02EF8D] := by decide +kernel
theorem test_table_normal : ([0, 1, 2, 128, 255].map (tableEntry 0x04C11DB7#32 false)) =
    [0x00000000, 0x04C11DB7, 0x09823B6E, 0x690CE0EE, 0xB1F740B4] := by decide +kernel
theorem test_table_16 : ([2, 128, 255].map (tableEntry 0x1021#16 false)) = [0x2042, 0x9188, 0x1EF0] ∧
    ([1, 2, 255].map (tableEntry 0x8005#16 true)) = [0xC0C1, 0xC181, 0x4040] := by decide +kernel
theorem test_table_64 : tableEntry 0x42F0E1EBA9EA3693#64 true 255 = 0xE0ADA17364673F59#64 ∧
    tableEntry 0x42F0E1EBA9EA3693#64 false 128 = 0xF6FAE5C07D3274CD#64 := by decide +kernel
theorem test_table_128 : tableEntry 0x0123456789ABCDEFFEDCBA9876543211#128 true 1 =
      0x01109854DC32BA76FFEF67AB23CD4589#128 ∧
    tableEntry 0x0123456789ABCDEFFEDCBA9876543211#128 false 128 = 0x91A2B3C4D5E6F7FF6E5D4C3B2A190880#128 := by
  decide +kernel
theorem test_fold_reflected :
    foldByte true 0x12345678#32 0x00 (tableEntry 0x04C11DB7#32 true) = 0x5ECCCD58#32 ∧
    foldByte true 0x000000FF#32 0xFF (tableEntry 0x04C11DB7#32 true) = 0#32 := by decide +kernel
theorem test_fold_normal :
    foldByte false 0x12345678#32 0x00 (tableEntry 0x04C11DB7#32 false) = 0x71C5981E#32 ∧
    foldByte false 0x00FF#16 0xFF (tableEntry 0x1021#16 false) = 0xE1F0#16 := by decide +kernel
theorem test_residue_order : deriveResidue .big .native 0x8005#16 0x1234#16 true true 0xABCD#16 = 0x8E95#16 ∧
    deriveResidue .little .native 0x8005#16 0x1234#16 true true 0xABCD#16 = 0x2F15#16 := by decide +kernel
theorem test_checksum_64 : finalize true true (BitVec.allOnes 64)
    (foldBytes true (BitVec.allOnes 64) checkMessage (tableEntry 0x42F0E1EBA9EA3693#64 true)) =
      0x995DC9BBDF1939FA#64 := by decide +kernel
theorem test_checksum_128 : finalize true true (BitVec.allOnes 128)
    (foldBytes true (BitVec.allOnes 128) checkMessage (tableEntry 0x0123456789ABCDEFFEDCBA9876543211#128 true)) =
      0x96186EAA158B52F89E20599C20BF61CA#128 := by decide +kernel
theorem test_bitSerial : bitSerialChecksum 0x1021#16 0x1D0F#16 true false 0x0001#16 [0x31, 0x32, 0x33] = 0x0F57#16 := by
  decide +kernel

/-! ### One step of each command: 95 section 7 and the programs of 95 section 8 and 96 part 2 -/

theorem test_config : ((after (exec (.config .w16 0x09 0x1021#16 0x1D0F#16 0x0001#16) (State.resetOf .w16 .little))).map
    fun t => (t.configured, t.arch.reg, t.arch.residue, t.tableAt 128)) =
      some (true, 0xF0B8, 0xAA4A, some 0x8408) := by decide +kernel
theorem test_config_reserved : lastResponse (exec (.config .w16 0x0C 0x1021#16 0#16 0#16) (blank .w16)) =
    some [0x83] := by decide +kernel
theorem test_configu : ((after (exec (.configu .w16 0x00 0x1021#16 0#16 0#16 0x1234#16) (blank .w16))).map
    fun t => (t.configured, t.arch.residue, t.tableAt 255)) = some (true, 0x1234, some 0x1EF0) := by decide +kernel
theorem test_configu_reserved : lastResponse (exec (.configu .w32 0x17 0#32 0#32 0#32 0#32) iso) = some [0x83] := by
  decide +kernel
theorem test_init : regAfter (exec .init isoEnd) = some 0xFFFFFFFF := by decide +kernel
theorem test_init_unconfigured : lastResponse (exec .init (blank .w32)) = some [0x84] := by decide +kernel
theorem test_update_reflected : regAfter (exec (.update 0x00) isoEnd) = some 0xFF3B61B6 := by decide +kernel
theorem test_update_normal : regAfter (exec (.update 0x31) bzip2) = some 0x9EFBCF93 := by decide +kernel
theorem test_rdsum : lastResponse (exec .rdsum isoEnd) = some [0x01, 0xCB, 0xF4, 0x39, 0x26] := by decide +kernel
theorem test_rdsum_empty : lastResponse (exec .rdsum iso) = some [0x01, 0, 0, 0, 0] := by decide +kernel
theorem test_rdsumb_little : lastResponse (exec .rdsumb isoEnd) = some [0x02, 0x26, 0x39, 0xF4, 0xCB] := by
  decide +kernel
theorem test_rdsumb_big : lastResponse (exec .rdsumb (bzip2.withReg 0x0376E6E7)) = some [0x02, 0xFC, 0x89, 0x19, 0x18] := by
  decide +kernel
theorem test_verify_false : lastResponse (exec .verify isoEnd) = some [0x03, 0x00] := by decide +kernel
theorem test_verify_true : lastResponse (exec .verify (iso.withReg 0xDEBB20E3)) = some [0x03, 0x01] := by
  decide +kernel
theorem test_rdtable_first : lastResponse (exec (.rdtable 0x01) iso) = some [0x01, 0x77, 0x07, 0x30, 0x96] := by
  decide +kernel
theorem test_rdtable_last : lastResponse (exec (.rdtable 0xFF) iso) = some [0x01, 0x2D, 0x02, 0xEF, 0x8D] := by
  decide +kernel
theorem test_rdres : lastResponse (exec .rdres iso) = some [0x01, 0xDE, 0xBB, 0x20, 0xE3] := by decide +kernel
theorem test_rdres_unconfigured : lastResponse (exec .rdres (blank .w32)) = some [0x84] := by decide +kernel

/-- The first known answer of the source (42_accumulator.md R161). -/
theorem test_checksum : lastResponse (execComposite (.checksum checkMessage) iso) =
    some [0x01, 0xCB, 0xF4, 0x39, 0x26] := by decide +kernel
/-- An intact codeword verifies, and one with a flipped bit does not (95 section 6). -/
theorem test_verifym : lastResponse (execComposite (.verifym (checkMessage ++ [0x26, 0x39, 0xF4, 0xCB])) iso) =
    some [0x03, 0x01] := by decide +kernel
theorem test_verifym_flipped :
    lastResponse (execComposite (.verifym (0x30 :: checkMessage.tail ++ [0x26, 0x39, 0xF4, 0xCB])) iso) =
      some [0x03, 0x00] := by decide +kernel

/-- The two faults arise in states no run reaches only (log 5, log 13). -/
theorem test_hollow_faults : (exec (.rdtable 0x01) (hollow 0x07) = .fault (.tableUnwritten 1)) ∧
    (exec .rdsumb (hollow 0x0C) = .fault .reservedOrder) := ⟨rfl, rfl⟩

/-- The textual syntax of 30_encoding.md R73. -/
theorem test_text : instrText (.config .w32 0x07 0x04C11DB7#32 0xFFFFFFFF#32 0xFFFFFFFF#32) =
      some "CONFIG Little 1 1 0x04C11DB7 0xFFFFFFFF 0xFFFFFFFF" ∧
    instrText (.update 0x31) = some "UPDATE 0x31" ∧ responseText (.val 0xCBF43926#32) = "VAL 0xCBF43926" ∧
    responseText (W := 32) (.bytes [0x26, 0x39, 0xF4, 0xCB]) = "BYTES 26 39 F4 CB" := by decide +kernel

/-! ### Witnesses: states and operands that meet the hypotheses of each statement, clause by clause -/

/-- The string of `CONFIG Little 1 1 0x04C11DB7 0xFFFFFFFF 0xFFFFFFFF`. -/
def isoString : List Byte := [0x01, 0x07, 0x04, 0xC1, 0x1D, 0xB7, 0xFF, 0xFF, 0xFF, 0xFF, 0xFF, 0xFF, 0xFF, 0xFF]

/-- A construction command for a 32-bit instance with a legal mode. -/
def isoConfig (mode : Byte) : Instr := .config .w32 mode 0x04C11DB7#32 0xFFFFFFFF#32 0xFFFFFFFF#32

/-- `CONFIGU` with a residue that is not the derived one, at the last legal mode byte. -/
def isoConfigu : Instr := .configu .w32 0x0B 0x04C11DB7#32 0xFFFFFFFF#32 0xFFFFFFFF#32 0x12345678#32

/-- Every construction command with operands of the instance's width and a legal mode acknowledges. -/
theorem construct_acks (s : State) (mode : Byte) (h : modeLegal mode = true) (poly init xorout residue : Word s.width) :
    (∃ t, exec (.config s.width mode poly init xorout) s = .next t ∧ t.responses = s.responses ++ [[0x00]] ∧
      t.configured = true ∧ t.engine.mode = mode) ∧
    ∃ t, exec (.configu s.width mode poly init xorout residue) s = .next t ∧ t.responses = s.responses ++ [[0x00]] ∧
      t.configured = true ∧ t.engine.mode = mode := by
  obtain ⟨f, hf⟩ : ∃ f, modeFields mode = some f := by
    cases hm : modeFields mode with
    | none => rw [modeFields_eq_none.1 hm] at h; cases h
    | some f => exact ⟨f, rfl⟩
  exact ⟨⟨_, construct_of_fields _ _ _ _ hf, rfl, rfl, rfl⟩, ⟨_, construct_of_fields _ _ _ _ hf, rfl, rfl, rfl⟩⟩

theorem witness_EncodeThenDecodeGivesTheCommand :
    wellFormed .w128 (.configu .w128 0x0B (BitVec.allOnes 128) 0#128 1#128 (BitVec.allOnes 128)) = true ∧
      wellFormed .w16 (.update 0xFF) = true := by decide +kernel
theorem witness_DecodedStringsAreEncodings : decode .w16 [0x11, 0xFF] = .ok (.update 0xFF) := by decide
theorem witness_OpcodeMapAndLengths : opcodeOfByte 0x31 = some .rdres ∧ opcodeOfByte 0x32 = none := by decide
theorem witness_OperandsTravelMostSignificantByteFirst :
    ([0xFF, 0x00] : List Byte).length = numBytes Width.w16.bits ∧
      (List.replicate 16 0x80 : List Byte).length = numBytes Width.w128.bits ∧
      modeLegal 0x0B = true ∧ ([0x11, 0x22] : List Byte).length = numBytes Width.w16.bits := by decide
theorem witness_ResponseBytesDetermineTheResponse :
    encodeResponse (.bytes [0x01, 0x02] : Response 16) = encodeResponse (.bytes [0x01, 0x02] : Response 16) := rfl
theorem witness_StepRunsTheDecodedCommand : (present [0x20] iso).inputs = .command [0x20] :: [] ∧
    decode (present [0x20] iso).width [0x20] = .ok .rdsum := ⟨rfl, by decide⟩
theorem witness_StepAnswersAStringThatIsNoCommand : (present [0x32] iso).inputs = .command [0x32] :: [] ∧
    decode (present [0x32] iso).width [0x32] = .error .illegalOpcode := ⟨rfl, by decide⟩
theorem witness_IdleStepChangesNothing : iso.inputs = [] := rfl
theorem witness_EveryStepCompletes : (present [0x11, 0x31] iso).Inv ∧ (blank .w64).Inv :=
  ⟨iso_inv, ⟨rfl, fun h => by cases h⟩⟩
theorem witness_EveryCommandSendsOneResponse : (present [0x11, 0xFF] iso).inputs = .command [0x11, 0xFF] :: [] ∧
    ∃ t, step (present [0x11, 0xFF] iso) = .next t := by
  refine ⟨rfl, ?_⟩
  have h : (after (step (present [0x11, 0xFF] iso))).isSome = true := by decide +kernel
  cases h' : step (present [0x11, 0xFF] iso) with
  | next t => exact ⟨t, rfl⟩
  | fault r => rw [h'] at h; cases h
  | refused r => rw [h'] at h; cases h
theorem witness_ErrorsHaveNoEffect : (present [0x10] (blank .w16)).inputs = .command [0x10] :: [] ∧
    step (present [0x10] (blank .w16)) = .next ((blank .w16).answer [0x84]) ∧
    ((blank .w16).answer [0x84]).responses = (present [0x10] (blank .w16)).responses ++
      [[BitVec.ofNat 8 (0x80 + errorCode .notConfigured)]] ∧
    (∃ u', step (present [0x20] (blank .w16)) = .next u') ∧
    ∃ t', step (present [0x20] ((blank .w16).answer [0x84])) = .next t' := ⟨rfl, rfl, rfl, ⟨_, rfl⟩, _, rfl⟩

/-- One string for each clause; 13 bytes are one short of the length that `CONFIG` has at 32 bits. -/
theorem witness_FirstFailingTestDecidesTheError :
    opcodeOfByte 0x32 = none ∧
    (opcodeOfByte 0x11 = some .update ∧ ([0x11] : List Byte).length ≠ opcodeLength iso.width.bits .update) ∧
    (opcodeOfByte 0x01 = some .config ∧ (isoString.set 1 0x0C).length = opcodeLength iso.width.bits .config ∧
      modeLegal ((isoString.set 1 0x0C).getD 1 0) = false) ∧
    (opcodeOfByte 0x30 = some .rdtable ∧ ([0x30, 0xFF] : List Byte).length = opcodeLength (blank .w32).width.bits .rdtable ∧
      (blank .w32).configured = false) ∧
    (0x01 :: 0xFF :: List.replicate 11 0xFF : List Byte).length ≠ opcodeLength iso.width.bits .config ∧
    (present [0x11] (blank .w32)).inputs = .command [0x11] :: [] := by
  refine ⟨?_, ?_, ?_, ⟨?_, ?_, rfl⟩, ?_, rfl⟩ <;> decide +kernel
theorem witness_ReservedModesAreRefused : modeLegal 0x0C = false ∧ modeLegal 0x0B = true ∧ modeLegal 0x10 = false ∧
    ∃ t, exec (isoConfig 0x0B) iso = .next t ∧ t.engine.mode ≠ iso.engine.mode := by
  refine ⟨by decide, by decide, by decide, ?_⟩
  obtain ⟨⟨t, h, -, -, hm⟩, -⟩ :=
    construct_acks iso 0x0B (by decide) 0x04C11DB7#32 0xFFFFFFFF#32 0xFFFFFFFF#32 0#32
  exact ⟨t, h, by rw [hm]; decide⟩
theorem witness_UnconfiguredCommandsAreRefused : isConstruction (.rdtable 0xFF) = false ∧
    (blank .w128).configured = false ∧ isConstruction (isoConfig 0x07) = true ∧
    ∃ t, exec (isoConfig 0x07) (blank .w32) = .next t := by
  obtain ⟨⟨t, h, -⟩, -⟩ :=
    construct_acks (blank .w32) 0x07 (by decide) 0x04C11DB7#32 0xFFFFFFFF#32 0xFFFFFFFF#32 0#32
  exact ⟨rfl, rfl, rfl, t, h⟩
theorem witness_ResetEvent : ({ iso with inputs := [.reset] } : State).inputs = .reset :: [] := rfl
theorem witness_StepKeepsInv : (present [0x10] iso).Inv ∧ ∃ t, step (present [0x10] iso) = .next t :=
  ⟨iso_inv, _, rfl⟩
theorem witness_StepKeepsTheInstanceParameters :
    ∃ t, step ({ iso with inputs := [.reset] } : State) = .next t := ⟨_, rfl⟩
theorem witness_OnlyConstructionWritesTheConfiguration :
    (isConstruction .init = false ∧ ∃ t, exec .init isoEnd = .next t) ∧
    (isConstruction (isoConfig 0x03) = true ∧ (blank .w32).width = bzip2.width ∧
      (blank .w32).nativeOrder = bzip2.nativeOrder ∧ (blank .w32).engine.table.wf = true ∧
      bzip2.engine.table.wf = true ∧
      (∃ t, exec (isoConfig 0x03) (blank .w32) = .next t ∧ t.responses = (blank .w32).responses ++ [[0x00]]) ∧
      ∃ t, exec (isoConfig 0x03) bzip2 = .next t) := by
  obtain ⟨⟨t, h, hr, -⟩, -⟩ :=
    construct_acks (blank .w32) 0x03 (by decide) 0x04C11DB7#32 0xFFFFFFFF#32 0xFFFFFFFF#32 0#32
  obtain ⟨⟨u, h', -⟩, -⟩ := construct_acks bzip2 0x03 (by decide) 0x04C11DB7#32 0xFFFFFFFF#32 0xFFFFFFFF#32 0#32
  exact ⟨⟨rfl, _, rfl⟩, rfl, rfl, rfl, rfl, bzip2_inv.1, ⟨t, h, hr⟩, u, h'⟩

theorem iso_residueDerived : iso.residueDerived := ⟨.little, by decide, by decide +kernel⟩

theorem witness_DerivedResidueStaysDerived :
    (modeLegal 0x07 = true ∧ ∃ t, exec (isoConfig 0x07) (blank .w32) = .next t) ∧
    ((present [0x10] iso).residueDerived ∧ (present [0x10] iso).inputs.head? ≠ some .reset ∧
      (∀ c rest, (present [0x10] iso).inputs = .command c :: rest → c.head? ≠ some 0x02) ∧
      ∃ t, step (present [0x10] iso) = .next t) ∧
    (modeFields 0x0B = some ⟨true, true, .native⟩ ∧ ∃ t, exec isoConfigu (blank .w32) = .next t) ∧
    modeLegal 0x00 = true ∧ modeLegal 0x0B = true := by
  obtain ⟨⟨t, h, -⟩, -⟩ :=
    construct_acks (blank .w32) 0x07 (by decide) 0x04C11DB7#32 0xFFFFFFFF#32 0xFFFFFFFF#32 0#32
  obtain ⟨-, u, hu, -⟩ :=
    construct_acks (blank .w32) 0x0B (by decide) 0x04C11DB7#32 0xFFFFFFFF#32 0xFFFFFFFF#32 0x12345678#32
  refine ⟨⟨by decide, t, h⟩, ⟨iso_residueDerived, by decide, ?_, _, rfl⟩, ⟨by decide, u, hu⟩, by decide⟩
  intro c rest h
  simp only [present_inputs, List.cons.injEq, HostInput.command.injEq] at h
  rw [← h.1]
  decide
theorem witness_ConfiguredFlag :
    (isConstruction isoConfigu = true ∧ ∃ t, exec isoConfigu (blank .w32) = .next t ∧
      t.responses = (blank .w32).responses ++ [[0x00]]) ∧
    (({ iso with inputs := [.reset] } : State).configured = true ∧
      ∃ t, step ({ iso with inputs := [.reset] } : State) = .next t ∧ t.configured = false) ∧
    (isConstruction .verify = false ∧ ∃ t, exec .verify iso = .next t) := by
  obtain ⟨-, t, h, hr, -⟩ :=
    construct_acks (blank .w32) 0x0B (by decide) 0x04C11DB7#32 0xFFFFFFFF#32 0xFFFFFFFF#32 0x12345678#32
  exact ⟨⟨rfl, t, h, hr⟩, ⟨rfl, _, rfl, rfl⟩, rfl, _, rfl⟩
theorem witness_ResponseIsAFunctionOfTheState : iso.arch = ({ iso with responses := [[0x00]], resets := 3 } : State).arch ∧
    ∃ t, step (present [0x22] iso) = .next t := ⟨rfl, _, rfl⟩
theorem witness_ByteOrderDoesNotAffectTheArithmetic :
    (modeRefin 0x03 = iso.engine.refin ∧ modeRefout 0x03 = iso.engine.refout ∧ ignoresOrder .rdsum = true ∧
      ∃ t, exec .rdsum iso = .next t) ∧
    (modeLegal 0x01 = true ∧ modeLegal 0x0B = true ∧ modeRefin 0x01 = modeRefin 0x0B) ∧
    (∃ t t', exec (isoConfig 0x01) iso = .next t ∧ exec (isoConfig 0x0B) iso = .next t') ∧
    ∃ t, exec isoConfigu iso = .next t := by
  obtain ⟨⟨t, h, -⟩, -⟩ := construct_acks iso 0x01 (by decide) 0x04C11DB7#32 0xFFFFFFFF#32 0xFFFFFFFF#32 0#32
  obtain ⟨⟨t', h', -⟩, u, hu, -⟩ :=
    construct_acks iso 0x0B (by decide) 0x04C11DB7#32 0xFFFFFFFF#32 0xFFFFFFFF#32 0x12345678#32
  exact ⟨⟨by decide, by decide, rfl, _, rfl⟩, by decide, ⟨t, t', h, h'⟩, u, hu⟩
theorem witness_ReadingCommandsChangeNoState : onlyReads .verify = true ∧ ∃ t, exec .verify isoEnd = .next t :=
  ⟨rfl, _, rfl⟩
theorem witness_AccumulatorCommandsChangeOnlyReg : ∃ t, exec .init isoEnd = .next t ∧ t.arch ≠ isoEnd.arch :=
  ⟨_, rfl, by
    intro h
    have h := congrArg ArchView.reg h
    revert h
    decide +kernel⟩
theorem witness_ConstructionFrame : isConstruction isoConfigu = true ∧ (∃ t, exec isoConfigu iso = .next t) ∧
    exec (.config .w16 0x00 0#16 0#16 0#16) iso = .next (iso.answer [0x82]) := by
  obtain ⟨-, t, h, -⟩ :=
    construct_acks iso 0x0B (by decide) 0x04C11DB7#32 0xFFFFFFFF#32 0xFFFFFFFF#32 0x12345678#32
  exact ⟨rfl, ⟨t, h⟩, rfl⟩
/-- `isoConfig` runs in every 32-bit state and leaves one. -/
theorem isoConfig_runs (s : State) (mode : Byte) (h : modeLegal mode = true) (hw : s.width = .w32) :
    ∃ t, exec (isoConfig mode) s = .next t ∧ t.width = .w32 ∧ t.responses = s.responses ++ [[0x00]] := by
  obtain ⟨w, n, e, c, ins, rs, k⟩ := s
  obtain rfl : w = .w32 := hw
  obtain ⟨f, hf⟩ : ∃ f, modeFields mode = some f := by
    cases hm : modeFields mode with
    | none => rw [modeFields_eq_none.1 hm] at h; cases h
    | some f => exact ⟨f, rfl⟩
  exact ⟨_, construct_of_fields (s := ⟨.w32, n, e, c, ins, rs, k⟩) _ _ _ _ hf, rfl, rfl⟩

theorem witness_ConfigCommand : modeFields 0x0B = some ⟨true, true, .native⟩ ∧ modeFields 0x0C = none ∧
    ((present [0x01] iso).inputs = .command [0x01] :: [] ∧ ([0x01] : List Byte).length ≠ 2 + 3 * (iso.width.bits / 8)) ∧
    iso.engine.table.wf = true ∧ ∃ t t', exec (isoConfig 0x07) iso = .next t ∧ exec (isoConfig 0x07) t = .next t' := by
  obtain ⟨t, h, hw, -⟩ := isoConfig_runs iso 0x07 (by decide) rfl
  obtain ⟨u, h', -⟩ := isoConfig_runs t 0x07 (by decide) hw
  exact ⟨by decide, by decide, ⟨rfl, by decide⟩, iso_inv.1, t, u, h, h'⟩
theorem witness_ConfiguCommand : modeFields 0x0B = some ⟨true, true, .native⟩ ∧ modeFields 0xFF = none ∧
    ((present [0x02] iso).inputs = .command [0x02] :: [] ∧ ([0x02] : List Byte).length ≠ 2 + 4 * (iso.width.bits / 8)) ∧
    ignoresResidue .rdsumb = true ∧ ∃ t, exec .rdsumb iso = .next t :=
  ⟨by decide, by decide, ⟨rfl, by decide⟩, rfl, _, rfl⟩
theorem witness_ConstructionEquivalence : modeLegal 0x07 = true ∧
    ∃ (t : State) (residue : Word iso.width), exec (isoConfig 0x07) iso = .next t ∧
      exec .rdres t = .next (t.answer (0x01 :: wordBytes residue)) := by
  have hf : modeFields 0x07 = some ⟨true, true, .little⟩ := by decide
  exact ⟨by decide, _, _, construct_of_fields (s := iso) 0x04C11DB7#32 0xFFFFFFFF#32 0xFFFFFFFF#32
    (fun f => deriveResidue iso.nativeOrder f.order 0x04C11DB7#32 0xFFFFFFFF#32 f.refin f.refout 0xFFFFFFFF#32) hf, rfl⟩
theorem witness_ConfigurationFillsTheTable : isConstruction (isoConfig 0x00) = true ∧
    ∃ t, exec (isoConfig 0x00) bzip2 = .next t ∧ t.responses = bzip2.responses ++ [[0x00]] := by
  obtain ⟨t, h, -, hr⟩ := isoConfig_runs bzip2 0x00 (by decide) rfl
  exact ⟨rfl, t, h, hr⟩

/-- A wrong length for each opcode, in a state of each kind. -/
theorem witness_refusesOtherLengths :
    ∀ op ∈ ([0x01, 0x02, 0x10, 0x11, 0x20, 0x21, 0x22, 0x30, 0x31] : List Byte),
      (present [op, 0x00, 0x00] (blank .w16)).inputs = .command (op :: [0x00, 0x00]) :: [] ∧
        ∀ l ∈ [1, 2, 2 + 3 * (Width.w16.bits / 8), 2 + 4 * (Width.w16.bits / 8)], (op :: [0x00, 0x00]).length ≠ l := by
  decide
theorem witness_InitCommand : isoEnd.configured = true ∧
    (∃ t t', exec .init isoEnd = .next t ∧ exec .init t = .next t') ∧
    isConstruction (isoConfig 0x0B) = true ∧ ∃ t, exec (isoConfig 0x0B) (blank .w32) = .next t ∧
      t.responses = (blank .w32).responses ++ [[0x00]] := by
  obtain ⟨t, h, -, hr⟩ := isoConfig_runs (blank .w32) 0x0B (by decide) rfl
  exact ⟨rfl, ⟨_, _, rfl, rfl⟩, rfl, t, h, hr⟩
theorem witness_UpdateCommand : iso.Inv ∧ iso.configured = true ∧ bzip2.Inv ∧ bzip2.configured = true ∧
    iso.engine.mode.getLsbD 0 = true ∧ bzip2.engine.mode.getLsbD 0 = false :=
  ⟨iso_inv, rfl, bzip2_inv, rfl, by decide, by decide⟩
theorem witness_RdsumCommand : isoEnd.configured = true ∧ (blank .w32).configured = false := ⟨rfl, rfl⟩
/-- Two states of one configuration with different `REG`. -/
theorem witness_RdsumDeterminesTheRegister : (isoEnd.configured = true ∧
    exec .rdsum isoEnd = .next (isoEnd.answer (0x01 :: wordBytes 0xCBF43926#32))) ∧
    isoEnd.arch = { iso.arch with reg := isoEnd.arch.reg } ∧ iso.configured = true ∧
    iso.arch.reg ≠ isoEnd.arch.reg := by
  refine ⟨⟨rfl, ?_⟩, rfl, rfl, by decide +kernel⟩
  have hn : isoEnd.engine.checksum.toNat = 0xCBF43926 := by decide +kernel
  have h : isoEnd.engine.checksum = 0xCBF43926#32 := BitVec.eq_of_toNat_eq hn
  rw [← h]
  rfl
theorem witness_RdsumbCommand : (crc32 .big 0x0B 0).configured = true ∧
    modeOrder (crc32 .big 0x0B 0).engine.mode = some .native ∧ modeOrder iso.engine.mode = some .little ∧
    modeOrder bzip2.engine.mode = some .big := ⟨rfl, by decide, by decide, by decide⟩
theorem witness_VerifyCommand : iso.configured = true ∧ ∃ t, exec .init iso = .next t := ⟨rfl, _, rfl⟩
theorem witness_RdtableCommand : iso.Inv ∧ iso.configured = true := ⟨iso_inv, rfl⟩
theorem witness_RdresCommand : iso.configured = true ∧ modeFields 0x07 = some ⟨true, true, .little⟩ ∧
    (∃ t, exec (isoConfig 0x07) iso = .next t) ∧ modeLegal 0x0B = true ∧ ∃ t, exec isoConfigu iso = .next t := by
  obtain ⟨t, h, -⟩ := isoConfig_runs iso 0x07 (by decide) rfl
  obtain ⟨-, u, hu, -⟩ :=
    construct_acks iso 0x0B (by decide) 0x04C11DB7#32 0xFFFFFFFF#32 0xFFFFFFFF#32 0x12345678#32
  exact ⟨rfl, by decide, ⟨t, h⟩, by decide, u, hu⟩

/-- Both ends of the ranges of bits, bytes and register tops that ReflectionReversesTheBits, InitialRegister,
ConditionalReflection, SerialisationPlacesTheBytes and FoldStepRule quantify over. -/
theorem witness_bit_ranges : (0 < Width.w16.bits ∧ 127 < Width.w128.bits) ∧ (1 < Width.w16.bits / 8 ∧ 7 < 8) ∧
    (15 < Width.w16.bits ∧ Width.w16.bits - 8 ≤ 15 ∧ Width.w16.bits - 8 ≤ 8) := by decide
/-- A sequence with an `INIT` in the middle and reads between the bytes: what counts is `32 33`. -/
theorem witness_SequencingIsFree : iso.Inv ∧ iso.configured = true ∧ iso.fresh ∧
    modeOrder iso.engine.mode = some .little ∧
    (∀ i ∈ [Instr.update 0x31, .init, .update 0x32, .rdsum, .rdtable 0xFF, .update 0x33], isConstruction i = false) ∧
    bytesSince [.update 0x31, .init, .update 0x32, .rdsum, .rdtable 0xFF, .update 0x33] [] = [0x32, 0x33] ∧
    isConstruction (isoConfig 0x0B) = true ∧ ∃ t, exec (isoConfig 0x0B) iso = .next t ∧
      t.responses = iso.responses ++ [[0x00]] := by
  obtain ⟨t, h, -, hr⟩ := isoConfig_runs iso 0x0B (by decide) rfl
  exact ⟨iso_inv, rfl, rfl, by decide, by decide, by decide, rfl, t, h, hr⟩

/-- For UpdatemFoldsTheBlock, ChecksumOperation, ChecksumbAndVerifymOperations and ChecksumAgreesWithTheBitSerialCrc: one
reflected and one non-reflected engine. -/
theorem witness_composites : iso.Inv ∧ iso.configured = true ∧ modeOrder iso.engine.mode = some .little ∧
    bzip2.Inv ∧ bzip2.configured = true ∧ modeOrder bzip2.engine.mode = some .big :=
  ⟨iso_inv, rfl, by decide, bzip2_inv, rfl, by decide⟩
theorem witness_MatchedResidueRoundTrip : (iso.Inv ∧ iso.configured = true ∧ iso.matchedOrder ∧ iso.residueDerived) ∧
    (bzip2.Inv ∧ bzip2.configured = true ∧ bzip2.matchedOrder) ∧
    ((crc32 .little 0x07 0).Inv ∧ (crc32 .little 0x07 0).matchedOrder ∧ ¬ (crc32 .little 0x07 0).residueDerived) := by
  refine ⟨⟨iso_inv, rfl, ⟨.little, by decide, .inl (by decide)⟩, iso_residueDerived⟩,
    ⟨bzip2_inv, rfl, .big, by decide, .inr (by decide)⟩,
    crc32_inv _ _ _ (by decide), ⟨.little, by decide, .inl (by decide)⟩, ?_⟩
  rintro ⟨order, ho, h⟩
  obtain rfl : order = .little := by
    have : modeOrder (0x07 : Byte) = some .little := by decide
    exact Option.some.inj (ho.symm.trans this)
  revert h
  decide +kernel
theorem witness_EmptyMessageRoundTrip : (crc32 .big 0x03 0xDEBB20E3).Inv ∧
    (crc32 .big 0x03 0xDEBB20E3).configured = true ∧ (crc32 .big 0x03 0xDEBB20E3).residueDerived :=
  ⟨crc32_inv _ _ _ (by decide), rfl, .big, by decide, by decide +kernel⟩
/-- Program 4 of 96 part 2: an intact codeword that does not verify. -/
theorem witness_RoundTripNeedsAMatchedOrder :
    lastResponse (execComposite (.checksumb checkMessage) (crc32 .big 0x03 0xDEBB20E3)) =
        some [0x02, 0xCB, 0xF4, 0x39, 0x26] ∧
      lastResponse (execComposite (.verifym (checkMessage ++ [0xCB, 0xF4, 0x39, 0x26])) (crc32 .big 0x03 0xDEBB20E3)) =
        some [0x03, 0x00] := by decide +kernel

end Sys2Proof.Tests
end

section
/-! SUPPORT. What each command can change, said once for the construction commands and once for all others. -/

namespace Sys2Proof.Machine

variable {s t : State} {i : Instr}

/-! ### Two cases of shared operations -/

theorem modeFields_of_modeLegal {mode : Byte} (h : modeLegal mode = true) : ∃ f, modeFields mode = some f := by
  obtain ⟨o, ho⟩ := modeOrder_of_modeLegal h
  exact ⟨⟨modeRefin mode, modeRefout mode, o⟩, modeFields_eq_some.2 ⟨h, ho, rfl, rfl⟩⟩

theorem readTable_of_none {a : Byte} (k : BitVec s.width.bits → Result) (h : s.engine.table.read a = none) :
    readTable s a k = .fault (.tableUnwritten a.toNat) := by
  simp [readTable, h]

/-! ### The commands that are no construction -/

/-- Every command but the two constructors is gated by the configured test (60_exceptions.md R184). -/
theorem exec_eq_whenConfigured (hi : isConstruction i = false) (s : State) : ∃ k, exec i s = whenConfigured s k := by
  cases i with
  | config | configu => cases hi
  | init | update | rdsum | rdsumb | verify | rdtable | rdres => exact ⟨_, rfl⟩

theorem refusedUnconfigured_of_not_construction (hi : isConstruction i = false) : refusedUnconfigured i := by
  intro s hs
  obtain ⟨k, hk⟩ := exec_eq_whenConfigured hi s
  rw [hk, whenConfigured_of_false k hs]
  rfl

/-- The finalise and read-back commands only respond (10_state.md R36). -/
theorem exec_next_of_onlyReads (hi : onlyReads i = true) (h : exec i s = .next t) :
    ∃ r : Response s.width.bits, t = respond r s := by
  cases i with
  | config | configu | init | update => cases hi
  | rdsum =>
    rcases execRdsum_next h with ⟨-, rfl⟩ | ⟨-, rfl⟩
    exacts [⟨_, rfl⟩, ⟨_, rfl⟩]
  | rdsumb =>
    rcases execRdsumb_next h with ⟨-, rfl⟩ | ⟨-, o, -, rfl⟩
    exacts [⟨_, rfl⟩, ⟨_, rfl⟩]
  | verify =>
    rcases execVerify_next h with ⟨-, rfl⟩ | ⟨-, rfl⟩
    exacts [⟨_, rfl⟩, ⟨_, rfl⟩]
  | rdtable a =>
    rcases execRdtable_next h with ⟨-, rfl⟩ | ⟨-, v, -, rfl⟩
    exacts [⟨_, rfl⟩, ⟨_, rfl⟩]
  | rdres =>
    rcases execRdres_next h with ⟨-, rfl⟩ | ⟨-, rfl⟩
    exacts [⟨_, rfl⟩, ⟨_, rfl⟩]

/-- A command that is no construction writes `REG` at most, and responds (10_state.md R26, R36). -/
theorem exec_next_of_not_construction (hi : isConstruction i = false) (h : exec i s = .next t) :
    ∃ (v : BitVec s.width.bits) (r : Response s.width.bits), t = respond r (s.withReg v) := by
  cases i with
  | config | configu => cases hi
  | init =>
    rcases execInit_next h with ⟨-, rfl⟩ | ⟨-, rfl⟩
    exacts [⟨s.engine.reg, _, rfl⟩, ⟨_, _, rfl⟩]
  | update b =>
    rcases execUpdate_next h with ⟨-, rfl⟩ | ⟨-, v, -, rfl⟩
    exacts [⟨s.engine.reg, _, rfl⟩, ⟨_, _, rfl⟩]
  | rdsum | rdsumb | verify | rdtable | rdres =>
    obtain ⟨r, rfl⟩ := exec_next_of_onlyReads rfl h
    exact ⟨s.engine.reg, r, rfl⟩

/-! ### The construction commands -/

/-- The state that an acknowledged construction command leaves. -/
def constructed (s : State) (mode : Byte) (poly init xorout residue : BitVec s.width.bits) : State :=
  respond (W := s.width.bits) .ack (installEngine s (newEngine s.engine.table mode poly init xorout residue))

@[simp] theorem constructed_configured (mode : Byte) (poly init xorout residue : BitVec s.width.bits) :
    (constructed s mode poly init xorout residue).configured = true := rfl

@[simp] theorem constructed_responses (mode : Byte) (poly init xorout residue : BitVec s.width.bits) :
    (constructed s mode poly init xorout residue).responses = s.responses ++ [[0x00]] := rfl

theorem exec_config_of_fields {mode : Byte} {f : ModeFields} (poly init xorout : Word s.width)
    (hf : modeFields mode = some f) :
    exec (.config s.width mode poly init xorout) s =
      .next (constructed s mode poly init xorout
        (deriveResidue s.nativeOrder f.order poly init f.refin f.refout xorout)) :=
  construct_of_fields poly init xorout _ hf

theorem exec_configu_of_fields {mode : Byte} {f : ModeFields} (poly init xorout residue : Word s.width)
    (hf : modeFields mode = some f) :
    exec (.configu s.width mode poly init xorout residue) s =
      .next (constructed s mode poly init xorout residue) :=
  construct_of_fields poly init xorout _ hf

/-- Both constructors are `construct`; the residue they install depends on the operands and `NATIVE_ORDER` alone. -/
theorem exec_eq_construct (hi : isConstruction i = true) :
    ∃ (w : Width) (mode : Byte) (poly init xorout : Word w) (residue : ByteEnd → ModeFields → Word w),
      ∀ s : State, exec i s = construct w mode poly init xorout (residue s.nativeOrder) s := by
  cases i with
  | config w mode poly init xorout =>
    exact ⟨w, mode, poly, init, xorout, fun e f => deriveResidue e f.order poly init f.refin f.refout xorout,
      fun _ => rfl⟩
  | configu w mode poly init xorout residue => exact ⟨w, mode, poly, init, xorout, fun _ _ => residue, fun _ => rfl⟩
  | init | update | rdsum | rdsumb | verify | rdtable | rdres => cases hi

section Construct

variable {w : Width} {mode : Byte} {poly init xorout : Word w} {residue : ModeFields → Word w} {f : ModeFields}

theorem construct_eq_constructed (hw : w = s.width) (hf : modeFields mode = some f) :
    construct w mode poly init xorout residue s =
      .next (constructed s mode (poly.setWidth _) (init.setWidth _) (xorout.setWidth _) ((residue f).setWidth _)) := by
  simp only [construct, if_pos hw, hf, constructed]

/-- `ACK` is sent by a construction that has taken place, and by no refused one. -/
theorem construct_acked (h : construct w mode poly init xorout residue s = .next t)
    (hr : t.responses = s.responses ++ [[0x00]]) :
    w = s.width ∧ ∃ f, modeFields mode = some f ∧
      t = constructed s mode (poly.setWidth _) (init.setWidth _) (xorout.setWidth _) ((residue f).setWidth _) := by
  rcases construct_next h with hacked | ⟨-, -, rfl⟩ | ⟨-, rfl⟩
  · exact hacked
  · simp [errorCode] at hr
  · simp [errorCode] at hr

end Construct

/-- A construction command answers next in three ways: it installs a new engine, or is refused for one of two causes. -/
theorem exec_next_of_construction (hi : isConstruction i = true) (h : exec i s = .next t) :
    (∃ (mode : Byte) (poly init xorout residue : BitVec s.width.bits), modeLegal mode = true ∧
      t = constructed s mode poly init xorout residue) ∨
    t = raiseError .reservedField s ∨ t = raiseError .badLength s := by
  obtain ⟨w, mode, poly, init, xorout, residue, hexec⟩ := exec_eq_construct hi
  rw [hexec] at h
  rcases construct_next h with ⟨-, f, hf, rfl⟩ | ⟨-, -, rfl⟩ | ⟨-, rfl⟩
  · exact .inl ⟨mode, _, _, _, _, (modeFields_eq_some.1 hf).1, rfl⟩
  · exact .inr (.inl rfl)
  · exact .inr (.inr rfl)

/-- What a construction leaves does not depend on the engine before it (10_state.md R26). -/
theorem constructed_arch_eq {s s' : State} {w : Width} (hw : s.width = s'.width) (hn : s.nativeOrder = s'.nativeOrder)
    (hm : s.engine.table.wf = true) (hm' : s'.engine.table.wf = true) (mode : Byte)
    (poly init xorout residue : Word w) :
    (constructed s mode (poly.setWidth _) (init.setWidth _) (xorout.setWidth _) (residue.setWidth _)).arch =
      (constructed s' mode (poly.setWidth _) (init.setWidth _) (xorout.setWidth _) (residue.setWidth _)).arch := by
  obtain ⟨width, native, engine, configured, inputs, responses, resets⟩ := s
  obtain ⟨width', native', engine', configured', inputs', responses', resets'⟩ := s'
  dsimp only at hw hn
  subst hw hn
  have htable := Memory.fill_eq_fill engine.table engine'.table
    (tableEntry (poly.setWidth width.bits) (modeRefin mode)) hm hm'
  simp [constructed, State.arch, htable]

/-- Every command adds exactly one response (00_scope.md R13). -/
theorem exec_next_responses (h : exec i s = .next t) :
    ∃ r : Response s.width.bits, t.responses = s.responses ++ [encodeResponse r] := by
  cases hi : isConstruction i with
  | false =>
    obtain ⟨v, r, rfl⟩ := exec_next_of_not_construction hi h
    exact ⟨r, rfl⟩
  | true =>
    rcases exec_next_of_construction hi h with ⟨mode, poly, init, xorout, residue, -, rfl⟩ | rfl | rfl
    exacts [⟨.ack, rfl⟩, ⟨.err .reservedField, rfl⟩, ⟨.err .badLength, rfl⟩]

end Sys2Proof.Machine
end

section
/-! SUPPORT. The decoder's answer begins with the opcode that stands in the string (30_encoding.md R62, R68). -/

namespace Sys2Proof.Machine

variable {i : Instr}

theorem opcodeByte_of_opcodeOfByte {b : Byte} {op : Opcode} (h : opcodeOfByte b = some op) : b = opcodeByte op := by
  unfold opcodeOfByte at h
  split at h
  all_goals cases h
  all_goals exact BitVec.eq_of_toNat_eq ‹_›

theorem instrOpcode_of_decodeOperands {w : Width} {op : Opcode} {c : List Byte}
    (h : decodeOperands w op c = .ok i) : instrOpcode i = op := by
  cases op with
  | config | configu =>
    simp only [decodeOperands] at h
    split at h
    · cases h
      rfl
    · cases h
  | init | update | rdsum | rdsumb | verify | rdtable | rdres =>
    cases h
    rfl

/-- A string that decodes starts with the opcode of its command (30_encoding.md R62, R68). -/
theorem head?_of_decode {w : Width} {c : List Byte} (h : decode w c = .ok i) :
    c.head? = some (opcodeByte (instrOpcode i)) := by
  unfold decode at h
  split at h
  · cases h
  · split at h
    · cases h
    · rename_i b bs op hop
      split at h
      · rw [List.head?_cons, opcodeByte_of_opcodeOfByte hop, instrOpcode_of_decodeOperands h]
      · cases h

end Sys2Proof.Machine
end

section
/-! SUPPORT. The flag and the derived residue through commands and steps (10_state.md R27, R30). -/

namespace Sys2Proof.Machine

variable {s t : State} {i : Instr}

theorem exec_construction_acked_configured (hi : isConstruction i = true) (h : exec i s = .next t)
    (hr : t.responses = s.responses ++ [[0x00]]) : t.configured = true := by
  rcases exec_next_of_construction hi h with ⟨mode, poly, init, xorout, residue, -, rfl⟩ | rfl | rfl
  · rfl
  · simp [errorCode] at hr
  · simp [errorCode] at hr

theorem exec_keeps_configured_of_not_construction (hi : isConstruction i = false) (h : exec i s = .next t) :
    t.configured = s.configured := by
  obtain ⟨v, r, rfl⟩ := exec_next_of_not_construction hi h
  rfl

/-- No command clears `CONFIGURED` (10_state.md R30). -/
theorem exec_configured_mono (hs : s.configured = true) (h : exec i s = .next t) : t.configured = true := by
  cases hi : isConstruction i with
  | false => exact (exec_keeps_configured_of_not_construction hi h).trans hs
  | true =>
    rcases exec_next_of_construction hi h with ⟨mode, poly, init, xorout, residue, -, rfl⟩ | rfl | rfl
    · rfl
    · exact hs
    · exact hs

/-- Of all steps only the reset event clears `CONFIGURED` (10_state.md R30). -/
theorem step_clears_configured (hs : s.configured = true) (h : step s = .next t) (ht : t.configured = false) :
    s.inputs.head? = some .reset := by
  rcases step_cases h with ⟨-, rfl⟩ | ⟨rest, hin, -⟩ | ⟨c, rest, i, -, -, hexec⟩ | ⟨c, rest, cause, -, -, rfl⟩
  · simp [hs] at ht
  · simp [hin]
  · have hmono := exec_configured_mono (s := { s with inputs := rest }) hs hexec
    simp [hmono] at ht
  · simp [hs] at ht

/-- After a construction the residue is the derived one exactly when the one installed is. -/
theorem constructed_residueDerived_iff {mode : Byte} {poly init xorout residue : BitVec s.width.bits} {f : ModeFields}
    (hf : modeFields mode = some f) :
    (constructed s mode poly init xorout residue).residueDerived ↔
      residue = deriveResidue s.nativeOrder f.order poly init f.refin f.refout xorout := by
  obtain ⟨-, horder, hrefin, hrefout⟩ := modeFields_eq_some.1 hf
  rw [hrefin, hrefout]
  constructor
  · rintro ⟨order, ho, hres⟩
    obtain rfl : order = f.order := Option.some.inj (ho.symm.trans horder)
    exact hres
  · exact fun hres => ⟨f.order, horder, hres⟩

/-- Every command but `CONFIGU` keeps a derived residue: `CONFIG` derives it anew or is refused. -/
theorem exec_keeps_residueDerived (hs : s.residueDerived) (hi : instrOpcode i ≠ .configu) (h : exec i s = .next t) :
    t.residueDerived := by
  cases i with
  | config w mode poly init xorout =>
    rcases construct_next h with ⟨rfl, f, hf, -⟩ | ⟨-, -, rfl⟩ | ⟨-, rfl⟩
    · rw [exec_config_of_fields poly init xorout hf] at h
      obtain rfl := Host.Outcome.next.inj h
      exact (constructed_residueDerived_iff hf).2 rfl
    · exact hs
    · exact hs
  | configu => exact absurd rfl hi
  | init | update | rdsum | rdsumb | verify | rdtable | rdres =>
    obtain ⟨v, r, rfl⟩ := exec_next_of_not_construction rfl h
    exact hs

/-- A step on anything but a reset or a `CONFIGU` string keeps a derived residue (10_state.md R27). -/
theorem step_keeps_residueDerived (hs : s.residueDerived) (hreset : s.inputs.head? ≠ some .reset)
    (hconfigu : ∀ c rest, s.inputs = .command c :: rest → c.head? ≠ some 0x02) (h : step s = .next t) :
    t.residueDerived := by
  rcases step_cases h with ⟨-, rfl⟩ | ⟨rest, hin, -⟩ | ⟨c, rest, i, hin, hdec, hexec⟩ | ⟨c, rest, cause, -, -, rfl⟩
  · exact hs
  · simp [hin] at hreset
  · have hop : instrOpcode i ≠ .configu := fun hop =>
      hconfigu c rest hin (by rw [head?_of_decode hdec, hop]; rfl)
    exact exec_keeps_residueDerived (s := { s with inputs := rest }) hs hop hexec
  · exact hs

theorem word_add_one_ne {w : Width} (v : Word w) : v + 1 ≠ v := by
  have hone : (1 : Word w) ≠ 0 := by cases w <;> decide
  simpa using hone

end Sys2Proof.Machine
end

section
/-! SUPPORT. A command at the same architectural state under another interface: what the host presents, the responses so far
and the number of resets (10_state.md R34). -/

namespace Sys2Proof.Machine

variable {s t : State} {i : Instr}

/-- A change of the state applied to the answer, where there is a next state. -/
def mapNext (g : State → State) : Result → Result
  | .next t => .next (g t)
  | .fault r => .fault r
  | .refused r => .refused r

/-- The state with another interface: the responses sent so far put before its own, the rest replaced. -/
def State.withInterface (s : State) (inputs : List HostInput) (responses : List (List Byte)) (resets : Nat) : State :=
  { s with inputs := inputs, responses := responses ++ s.responses, resets := resets }

/-- The state with nothing presented, nothing sent and no reset taken: what 10_state.md R20 and the parameters hold. -/
def State.bare (s : State) : State := { s with inputs := [], responses := [], resets := 0 }

theorem bare_withInterface (s : State) : s.bare.withInterface s.inputs s.responses s.resets = s := by
  simp [State.bare, State.withInterface]

theorem bare_eq_of_arch_eq {s s' : State} (h : s.arch = s'.arch) : s.bare = s'.bare := by
  rw [eq_of_arch_eq h]
  rfl

section Interface

variable (ins : List HostInput) (rs : List (List Byte)) (n : Nat)

theorem respond_withInterface {W : Nat} (r : Response W) :
    respond r (s.withInterface ins rs n) = (respond r s).withInterface ins rs n := by
  simp [respond, State.withInterface]

theorem next_respond_withInterface {W : Nat} (r : Response W) :
    (.next (respond r (s.withInterface ins rs n)) : Result) =
      mapNext (·.withInterface ins rs n) (.next (respond r s)) :=
  congrArg Host.Outcome.next (respond_withInterface ins rs n r)

theorem whenConfigured_withInterface {k k' : Result} (hk : k' = mapNext (·.withInterface ins rs n) k) :
    whenConfigured (s.withInterface ins rs n) k' = mapNext (·.withInterface ins rs n) (whenConfigured s k) := by
  cases hc : s.configured with
  | false =>
    rw [whenConfigured_of_false k hc, whenConfigured_of_false (s := s.withInterface ins rs n) k' hc]
    exact next_respond_withInterface ins rs n _
  | true => rw [whenConfigured_of_true k hc, whenConfigured_of_true (s := s.withInterface ins rs n) k' hc, hk]

theorem readTable_withInterface (a : Byte) {k k' : BitVec s.width.bits → Result}
    (hk : ∀ v, k' v = mapNext (·.withInterface ins rs n) (k v)) :
    readTable (s.withInterface ins rs n) a k' = mapNext (·.withInterface ins rs n) (readTable s a k) := by
  cases hv : s.engine.table.read a with
  | none =>
    rw [readTable_of_none k hv]
    exact readTable_of_none (s := s.withInterface ins rs n) k' hv
  | some v =>
    rw [readTable_of_some k hv]
    exact (readTable_of_some (s := s.withInterface ins rs n) k' hv).trans (hk v)

theorem construct_withInterface {w : Width} (mode : Byte) (poly init xorout : Word w) (residue : ModeFields → Word w) :
    construct w mode poly init xorout residue (s.withInterface ins rs n) =
      mapNext (·.withInterface ins rs n) (construct w mode poly init xorout residue s) := by
  by_cases hw : w = s.width
  · subst hw
    cases hf : modeFields mode with
    | none =>
      rw [construct_of_reserved poly init xorout residue hf]
      exact (construct_of_reserved (s := s.withInterface ins rs n) poly init xorout residue hf).trans
        (next_respond_withInterface ins rs n _)
    | some f =>
      rw [construct_of_fields poly init xorout residue hf]
      exact (construct_of_fields (s := s.withInterface ins rs n) poly init xorout residue hf).trans
        (next_respond_withInterface (s := installEngine s _) ins rs n _)
  · unfold construct
    rw [if_neg hw, if_neg (show ¬ w = (s.withInterface ins rs n).width from hw)]
    exact next_respond_withInterface ins rs n _

/-- No command looks at what the host presents, at the responses before its own or at the number of resets. -/
theorem exec_withInterface (i : Instr) (s : State) :
    exec i (s.withInterface ins rs n) = mapNext (·.withInterface ins rs n) (exec i s) := by
  cases i with
  | config | configu => exact construct_withInterface ins rs n _ _ _ _ _
  | init => exact whenConfigured_withInterface ins rs n (next_respond_withInterface (s := s.withReg _) ins rs n _)
  | update b =>
    exact whenConfigured_withInterface ins rs n
      (readTable_withInterface ins rs n _ fun _ => next_respond_withInterface (s := s.withReg _) ins rs n _)
  | rdsum | verify | rdres => exact whenConfigured_withInterface ins rs n (next_respond_withInterface ins rs n _)
  | rdsumb =>
    refine whenConfigured_withInterface ins rs n ?_
    change (match modeOrder s.engine.mode with | some o => _ | none => _) = _
    cases modeOrder s.engine.mode with
    | none => rfl
    | some o => exact next_respond_withInterface ins rs n _
  | rdtable a =>
    exact whenConfigured_withInterface ins rs n
      (readTable_withInterface ins rs n a fun _ => next_respond_withInterface ins rs n _)

end Interface

theorem step_present_of_ok {c : List Byte} (h : decode s.width c = .ok i) : step (present c s) = exec i s := by
  simp [step, takeInput, present, h]

theorem step_present_of_error {c : List Byte} {cause : ErrorCause} (h : decode s.width c = .error cause) :
    step (present c s) = .next (raiseError cause s) := by
  simp [step, takeInput, present, h]

theorem step_present_withInterface (ins : List HostInput) (rs : List (List Byte)) (n : Nat) (c : List Byte)
    (s : State) :
    step (present c (s.withInterface ins rs n)) = mapNext (·.withInterface ins rs n) (step (present c s)) := by
  cases hd : decode s.width c with
  | ok i =>
    rw [step_present_of_ok hd, step_present_of_ok (s := s.withInterface ins rs n) hd, exec_withInterface]
  | error cause =>
    rw [step_present_of_error hd, step_present_of_error (s := s.withInterface ins rs n) hd]
    exact next_respond_withInterface ins rs n _

theorem step_present_eq_bare (c : List Byte) (s : State) :
    step (present c s) = mapNext (·.withInterface s.inputs s.responses s.resets) (step (present c s.bare)) := by
  have h := step_present_withInterface s.inputs s.responses s.resets c s.bare
  rwa [bare_withInterface] at h

theorem step_present_responses {c : List Byte} (h : step (present c s) = .next t) :
    ∃ r : Response s.width.bits, t.responses = s.responses ++ [encodeResponse r] := by
  cases hd : decode s.width c with
  | ok i => exact exec_next_responses ((step_present_of_ok hd).symm.trans h)
  | error cause =>
    obtain rfl := Host.Outcome.next.inj ((step_present_of_error hd).symm.trans h)
    exact ⟨.err cause, rfl⟩

theorem mapNext_eq_next {g : State → State} {k : Result} (h : mapNext g k = .next t) :
    ∃ u, k = .next u ∧ t = g u := by
  cases k with
  | next u => exact ⟨u, rfl, (Host.Outcome.next.inj h).symm⟩
  | fault | refused => cases h

end Sys2Proof.Machine
end

section
/-! CERTIFICATES. The statements of 10_state.md. -/

namespace Sys2Proof.Machine

/-- Settles O21: the other commands write `REG` at most, and a construction fills the whole table anew. -/
theorem onlyConstructionWritesTheConfiguration : Obligations.OnlyConstructionWritesTheConfiguration := by
  unfold Obligations.OnlyConstructionWritesTheConfiguration
  refine ⟨fun s t i hi h => ?_, fun s s' t t' i hi hw hn hm hm' h h' hr => ?_⟩
  · obtain ⟨v, r, rfl⟩ := exec_next_of_not_construction hi h
    rfl
  · obtain ⟨w, mode, poly, init, xorout, residue, hexec⟩ := exec_eq_construct hi
    rw [hexec] at h h'
    obtain ⟨hws, f, hf, rfl⟩ := construct_acked h hr
    rw [construct_eq_constructed (hws.trans hw) hf, ← hn] at h'
    obtain rfl := Host.Outcome.next.inj h'
    exact ⟨constructed_responses .., constructed_arch_eq hw hn hm hm' mode poly init xorout _⟩

/-- Settles O22; the `CONFIGU` that leaves a residue that is not derived supplies the derived one plus 1. -/
theorem derivedResidueStaysDerived : Obligations.DerivedResidueStaysDerived := by
  unfold Obligations.DerivedResidueStaysDerived
  refine ⟨fun s t mode poly init xorout hm h => ?_, fun s t hs hreset hconfigu h =>
    step_keeps_residueDerived hs hreset hconfigu h, fun s t mode poly init xorout residue f hf h => ?_,
    fun w e mode hm => ?_⟩
  · obtain ⟨f, hf⟩ := modeFields_of_modeLegal hm
    rw [exec_config_of_fields poly init xorout hf] at h
    obtain rfl := Host.Outcome.next.inj h
    exact (constructed_residueDerived_iff hf).2 rfl
  · rw [exec_configu_of_fields poly init xorout residue hf] at h
    obtain rfl := Host.Outcome.next.inj h
    exact constructed_residueDerived_iff hf
  · obtain ⟨f, hf⟩ := modeFields_of_modeLegal hm
    exact ⟨0, 0, 0, deriveResidue e f.order 0 0 f.refin f.refout 0 + 1, _,
      exec_configu_of_fields (s := State.resetOf w e) 0 0 0 _ hf, rfl,
      fun hres => word_add_one_ne _ ((constructed_residueDerived_iff hf).1 hres)⟩

/-- Settles O23, from what the constructors install, what the others leave and what the configured test refuses. -/
theorem configuredFlag : Obligations.ConfiguredFlag :=
  ⟨takeReset_configured, resetOf_configured _ _,
    fun _ _ _ hi h hr => exec_construction_acked_configured hi h hr,
    fun _ _ hs h ht => step_clears_configured hs h ht,
    fun _ _ _ hi h => exec_keeps_configured_of_not_construction hi h,
    fun _ hi => refusedUnconfigured_of_not_construction hi⟩

/-- Settles O24: both states are one bare state under two interfaces, and a step on a command carries the interface
along. -/
theorem responseIsAFunctionOfTheState : Obligations.ResponseIsAFunctionOfTheState := by
  unfold Obligations.ResponseIsAFunctionOfTheState
  intro s s' t c harch h
  rw [step_present_eq_bare] at h
  obtain ⟨u, hu, rfl⟩ := mapNext_eq_next h
  obtain ⟨r, hr⟩ := step_present_responses hu
  have hresponses : u.responses = [encodeResponse r] := hr
  refine ⟨u.withInterface s'.inputs s'.responses s'.resets, encodeResponse r, ?_, rfl,
    congrArg (s.responses ++ ·) hresponses, congrArg (s'.responses ++ ·) hresponses⟩
  rw [step_present_eq_bare, ← bare_eq_of_arch_eq harch, hu]
  rfl

end Sys2Proof.Machine
end

section
/-! SUPPORT. The table after a construction, and the read of an entry that holds a value (20_memory.md R41, R53). -/

namespace Sys2Proof.Machine

variable {s t : State} {i : Instr}

theorem constructed_tableMatches (mode : Byte) (poly init xorout residue : BitVec s.width.bits) :
    (constructed s mode poly init xorout residue).engine.tableMatches :=
  fun a => Memory.read_fill s.engine.table (tableEntry poly (modeRefin mode)) a

theorem exec_construction_acked_tableMatches (hi : isConstruction i = true) (h : exec i s = .next t)
    (hr : t.responses = s.responses ++ [[0x00]]) : t.engine.tableMatches := by
  obtain ⟨w, mode, poly, init, xorout, residue, hexec⟩ := exec_eq_construct hi
  rw [hexec] at h
  obtain ⟨-, f, -, rfl⟩ := construct_acked h hr
  exact constructed_tableMatches mode _ _ _ _

theorem exec_rdtable_of_read {a : Byte} {v : Word s.width} (hc : s.configured = true)
    (hv : s.engine.table.read a = some v) : exec (.rdtable a) s = .next (s.answer (0x01 :: wordBytes v)) :=
  (whenConfigured_of_true _ hc).trans (readTable_of_some _ hv)

end Sys2Proof.Machine
end

section
/-! CERTIFICATES. The statements of 20_memory.md. -/

namespace Sys2Proof.Machine

/-- Settles O32: an acknowledged construction sets `CONFIGURED` and leaves the generator's table, which `RDTABLE` then
reads. -/
theorem configurationFillsTheTable : Obligations.ConfigurationFillsTheTable := by
  unfold Obligations.ConfigurationFillsTheTable
  intro s t i hi h hr a
  have hread := exec_construction_acked_tableMatches hi h hr a
  have hconfigured := exec_construction_acked_configured hi h hr
  exact ⟨hread, _, rfl, exec_rdtable_of_read hconfigured hread⟩

end Sys2Proof.Machine
end

section
/-! SUPPORT. The transport of `W`-bit values as bytes, most significant first, and its inverse (30_encoding.md R64). -/

namespace Sys2Proof.Machine

theorem bytesValue_append (p q : List Byte) :
    bytesValue (p ++ q) = bytesValue p * 256 ^ q.length + bytesValue q := by
  induction q using List.reverseRecOn with
  | nil => simp [bytesValue]
  | append_singleton q b ih =>
    have hsnoc (l : List Byte) : bytesValue (l ++ [b]) = bytesValue l * 256 + b.toNat := by simp [bytesValue]
    rw [← List.append_assoc, hsnoc, hsnoc, ih, List.length_append, List.length_singleton]
    ring

theorem bytesValue_cons (b : Byte) (o : List Byte) :
    bytesValue (b :: o) = b.toNat * 256 ^ o.length + bytesValue o := by
  simpa [bytesValue] using bytesValue_append [b] o

theorem bytesValue_lt (o : List Byte) : bytesValue o < 256 ^ o.length := by
  induction o with
  | nil => simp [bytesValue]
  | cons b o ih =>
    have hb : b.toNat * 256 ^ o.length ≤ 255 * 256 ^ o.length := Nat.mul_le_mul_right _ (by omega)
    rw [bytesValue_cons, List.length_cons, Nat.pow_succ]
    omega

/-- The sum of 30_encoding.md R64. -/
theorem bytesValue_eq_sum (o : List Byte) :
    bytesValue o = ((List.range o.length).map fun k => (o.getD k 0).toNat * 2 ^ (8 * (o.length - 1 - k))).sum := by
  induction o with
  | nil => rfl
  | cons b o ih =>
    have hpow : (2 : Nat) ^ (8 * o.length) = 256 ^ o.length := Nat.pow_mul 2 8 o.length
    simp [bytesValue_cons, ih, List.range_succ_eq_map, Function.comp_def, hpow, Nat.sub_sub, Nat.add_comm 1]

/-- The byte with `q` after it is the digit of weight `256 ^ q.length`. -/
theorem bytesValue_digit (p : List Byte) (b : Byte) (q : List Byte) :
    bytesValue (p ++ b :: q) / 256 ^ q.length % 256 = b.toNat := by
  have hsplit : bytesValue (p ++ b :: q) = bytesValue q + (b.toNat + 256 * bytesValue p) * 256 ^ q.length := by
    rw [bytesValue_append, bytesValue_cons, List.length_cons]
    ring
  rw [hsplit, Nat.add_mul_div_right _ _ (by positivity), Nat.div_eq_of_lt (bytesValue_lt q), Nat.zero_add,
    Nat.add_mul_mod_self_left, Nat.mod_eq_of_lt b.isLt]

variable {W : Nat}

theorem toNat_byteAt (v : BitVec W) (k : Nat) : (byteAt v k).toNat = v.toNat / 256 ^ k % 256 := by
  rw [byteAt, BitVec.extractLsb'_toNat, Nat.shiftRight_eq_div_pow, Nat.pow_mul]

theorem mul_numBytes_bits (w : Width) : 8 * numBytes w.bits = w.bits := by cases w <;> rfl

section Assembled

variable {o : List Byte} (hW : 8 * numBytes W = W) (ho : o.length = numBytes W)
include hW ho

theorem toNat_wordOfBytes : (wordOfBytes W o).toNat = bytesValue o := by
  have hlt := bytesValue_lt o
  rw [ho, ← Nat.pow_mul 2 8, hW] at hlt
  exact Nat.mod_eq_of_lt hlt

theorem byteAt_wordOfBytes {j : Nat} (hj : j < numBytes W) :
    byteAt (wordOfBytes W o) (numBytes W - 1 - j) = o.getD j 0 := by
  have hjo : j < o.length := ho ▸ hj
  have hafter : (o.drop (j + 1)).length = numBytes W - 1 - j := by rw [List.length_drop]; omega
  have hsplit : o.take j ++ o[j] :: o.drop (j + 1) = o := by simp
  apply BitVec.eq_of_toNat_eq
  have hdigit := bytesValue_digit (o.take j) o[j] (o.drop (j + 1))
  rwa [hsplit, hafter, ← List.getD_eq_getElem o 0 hjo, ← toNat_wordOfBytes hW ho, ← toNat_byteAt] at hdigit

/-- Taking the assembled word apart gives its bytes again. -/
theorem wordBytes_wordOfBytes : wordBytes (wordOfBytes W o) = o := by
  refine List.ext_getElem (by simp [ho]) fun j hj hjo => ?_
  rw [length_wordBytes] at hj
  simp [wordBytes, byteAt_wordOfBytes hW ho hj, hjo]

end Assembled

theorem byteAt_eq_of_wordBytes_eq {u v : BitVec W} (h : wordBytes u = wordBytes v) {k : Nat} (hk : k < numBytes W) :
    byteAt u k = byteAt v k := by
  have hget := List.map_inj_left.1 h (numBytes W - 1 - k) (List.mem_range.2 (by omega))
  rwa [show numBytes W - 1 - (numBytes W - 1 - k) = k by omega] at hget

/-- A word of whole bytes is determined by them. -/
theorem wordBytes_injective (hW : 8 * numBytes W = W) {u v : BitVec W} (h : wordBytes u = wordBytes v) : u = v := by
  refine BitVec.eq_of_getLsbD_eq fun i hi => ?_
  have hbyte := byteAt_eq_of_wordBytes_eq h (k := i / 8) (by omega)
  have hbit (x : BitVec W) : (byteAt x (i / 8)).getLsbD (i % 8) = x.getLsbD i := by
    rw [getLsbD_byteAt x _ _ (Nat.mod_lt _ (by decide)), Nat.div_add_mod]
  rw [← hbit u, ← hbit v, hbyte]

/-- Assembling the bytes of a word gives the word again. -/
theorem wordOfBytes_wordBytes (hW : 8 * numBytes W = W) (v : BitVec W) : wordOfBytes W (wordBytes v) = v :=
  wordBytes_injective hW (wordBytes_wordOfBytes hW (length_wordBytes v))

end Sys2Proof.Machine
end

section
/-! SUPPORT. What a construction command's string decodes to (30_encoding.md R65, R66, R69). -/

namespace Sys2Proof.Machine

variable {w : Width}

/-- A string of the length its opcode fixes is decoded by its operands. -/
theorem decode_of_length {op : Opcode} {b : Byte} {bs : List Byte} (hop : opcodeOfByte b = some op)
    (hlen : (b :: bs).length = opcodeLength w.bits op) : decode w (b :: bs) = decodeOperands w op (b :: bs) := by
  simp only [decode, hop, if_pos hlen]

section Strings

variable {mode : Byte} {poly init xorout residue : List Byte} (hm : modeLegal mode = true)
  (hp : poly.length = numBytes w.bits) (hi : init.length = numBytes w.bits) (hx : xorout.length = numBytes w.bits)
include hm hp hi hx

/-- `CONFIG` with its operands at the places of 30_encoding.md R65. -/
theorem decode_config :
    decode w (0x01 :: mode :: (poly ++ init ++ xorout)) =
      .ok (.config w mode (wordOfBytes w.bits poly) (wordOfBytes w.bits init) (wordOfBytes w.bits xorout)) := by
  have hlen : (0x01 :: mode :: (poly ++ init ++ xorout) : List Byte).length = opcodeLength w.bits .config := by
    simp only [opcodeLength, opcodeFormat, formatLength, List.length_cons, List.length_append, hp, hi, hx]
    omega
  have hpoly := cmdWord_of_append 0x01 mode [] poly (init ++ xorout) 0 (Nat.zero_mul _).symm hp
  have hinit := cmdWord_of_append 0x01 mode poly init xorout 1 (by rw [hp, Nat.one_mul]) hi
  have hxorout := cmdWord_of_append 0x01 mode (poly ++ init) xorout [] 2
    (by rw [List.length_append, hp, hi, Nat.two_mul]) hx
  simp only [List.nil_append, List.append_nil, ← List.append_assoc] at hpoly hxorout
  rw [decode_of_length rfl hlen, decodeOperands, hpoly, hinit, hxorout]
  exact if_pos hm

/-- `CONFIGU` with its operands at the places of 30_encoding.md R66. -/
theorem decode_configu (hr : residue.length = numBytes w.bits) :
    decode w (0x02 :: mode :: (poly ++ init ++ xorout ++ residue)) =
      .ok (.configu w mode (wordOfBytes w.bits poly) (wordOfBytes w.bits init) (wordOfBytes w.bits xorout)
        (wordOfBytes w.bits residue)) := by
  have hlen : (0x02 :: mode :: (poly ++ init ++ xorout ++ residue) : List Byte).length =
      opcodeLength w.bits .configu := by
    simp only [opcodeLength, opcodeFormat, formatLength, List.length_cons, List.length_append, hp, hi, hx, hr]
    omega
  have hpoly := cmdWord_of_append 0x02 mode [] poly (init ++ xorout ++ residue) 0 (Nat.zero_mul _).symm hp
  have hinit := cmdWord_of_append 0x02 mode poly init (xorout ++ residue) 1 (by rw [hp, Nat.one_mul]) hi
  have hxorout := cmdWord_of_append 0x02 mode (poly ++ init) xorout residue 2
    (by rw [List.length_append, hp, hi, Nat.two_mul]) hx
  have hresidue := cmdWord_of_append 0x02 mode (poly ++ init ++ xorout) residue [] 3
    (by rw [List.length_append, List.length_append, hp, hi, hx]; ring) hr
  simp only [List.nil_append, List.append_nil, ← List.append_assoc] at hpoly hinit hresidue
  rw [decode_of_length rfl hlen, decodeOperands, hpoly, hinit, hxorout, hresidue]
  exact if_pos hm

end Strings

end Sys2Proof.Machine
end

section
/-! SUPPORT. The fields of the mode byte as numbers, and what a reserved one leaves (30_encoding.md R67). -/

namespace Sys2Proof.Machine

variable {s t : State} {i : Instr}

theorem modeRefin_iff (mode : Byte) : modeRefin mode = true ↔ mode.toNat % 2 = 1 := by
  simp [modeRefin, BitVec.getLsbD, Nat.testBit_zero]

theorem modeRefout_iff (mode : Byte) : modeRefout mode = true ↔ mode.toNat / 2 % 2 = 1 := by
  simp [modeRefout, BitVec.getLsbD, Nat.testBit_succ, Nat.testBit_zero]

theorem toNat_orderBits (mode : Byte) : (mode.extractLsb' 2 2).toNat = mode.toNat / 4 % 4 := by
  rw [BitVec.extractLsb'_toNat, Nat.shiftRight_eq_div_pow]

theorem orderOfBits_eq_some_iff (b : BitVec 2) (o : Order) : orderOfBits b = some o ↔ b.toNat = orderCode o := by
  cases o <;> decide +revert

theorem orderOfBits_eq_none_iff (b : BitVec 2) : orderOfBits b = none ↔ b.toNat = 3 := by decide +revert

theorem modeOrder_eq_some_iff (mode : Byte) (o : Order) :
    modeOrder mode = some o ↔ mode.toNat / 4 % 4 = orderCode o := by
  rw [modeOrder, orderOfBits_eq_some_iff, toNat_orderBits]

theorem modeOrder_eq_none_iff (mode : Byte) : modeOrder mode = none ↔ mode.toNat / 4 % 4 = 3 := by
  rw [modeOrder, orderOfBits_eq_none_iff, toNat_orderBits]

theorem modeLegal_iff (mode : Byte) :
    modeLegal mode = true ↔ mode.toNat / 16 = 0 ∧ mode.toNat / 4 % 4 ≠ 3 := by
  have hhigh : (mode.extractLsb' 4 4).toNat = mode.toNat / 16 % 16 := by
    rw [BitVec.extractLsb'_toNat, Nat.shiftRight_eq_div_pow]
  have hzero : mode.extractLsb' 4 4 = 0 ↔ mode.toNat / 16 = 0 := by
    rw [← BitVec.toNat_inj, hhigh, show (0 : BitVec 4).toNat = 0 from rfl]
    omega
  rw [modeLegal, Bool.and_eq_true, beq_iff_eq, hzero, Option.isSome_iff_ne_none, Ne, modeOrder_eq_none_iff]

theorem modeLegal_iff_le (mode : Byte) : modeLegal mode = true ↔ mode.toNat ≤ 0x0B := by
  rw [modeLegal_iff]
  omega

/-- The reserved mode bytes are `0x0C .. 0xFF`, 244 of them (60_exceptions.md R183). -/
theorem length_filter_not_modeLegal :
    ((List.range 256).filter fun k => !modeLegal (BitVec.ofNat 8 k)).length = 244 := by
  have hmode (k : Nat) (hk : k < 256) : modeLegal (BitVec.ofNat 8 k) = decide (k < 12) := by
    rw [Bool.eq_iff_iff, modeLegal_iff_le, BitVec.toNat_ofNat, Nat.mod_eq_of_lt hk, decide_eq_true_iff]
    omega
  have hlegal : ∀ k ∈ List.range 12, ¬ (!modeLegal (BitVec.ofNat 8 k)) = true := fun k hk => by
    have hk := List.mem_range.1 hk
    simpa [hmode k (by omega)] using hk
  have hreserved : ∀ k ∈ (List.range 244).map (12 + ·), (!modeLegal (BitVec.ofNat 8 k)) = true := fun k hk => by
    obtain ⟨j, hj, rfl⟩ := List.mem_map.1 hk
    have hj := List.mem_range.1 hj
    simp [hmode (12 + j) (by omega)]
  rw [show 256 = 12 + 244 from rfl, List.range_add, List.filter_append, List.filter_eq_nil_iff.2 hlegal,
    List.filter_eq_self.2 hreserved, List.nil_append, List.length_map, List.length_range]

/-- The construction commands refuse a reserved mode (60_exceptions.md R183). -/
theorem exec_config_of_reserved {mode : Byte} (poly init xorout : Word s.width) (hm : modeLegal mode = false) :
    exec (.config s.width mode poly init xorout) s = .next (s.answer [0x83]) :=
  construct_of_reserved poly init xorout _ (modeFields_eq_none.2 hm)

theorem exec_configu_of_reserved {mode : Byte} (poly init xorout residue : Word s.width)
    (hm : modeLegal mode = false) :
    exec (.configu s.width mode poly init xorout residue) s = .next (s.answer [0x83]) :=
  construct_of_reserved poly init xorout _ (modeFields_eq_none.2 hm)

/-- A command keeps `MODE` or stores a legal byte in it. -/
theorem exec_mode (h : exec i s = .next t) : t.engine.mode = s.engine.mode ∨ modeLegal t.engine.mode = true := by
  cases hi : isConstruction i with
  | false =>
    obtain ⟨v, r, rfl⟩ := exec_next_of_not_construction hi h
    exact .inl rfl
  | true =>
    rcases exec_next_of_construction hi h with ⟨mode, poly, init, xorout, residue, hm, rfl⟩ | rfl | rfl
    exacts [.inr hm, .inl rfl, .inl rfl]

end Sys2Proof.Machine
end

section
/-! CERTIFICATES. The statements of 30_encoding.md. -/

namespace Sys2Proof.Machine

/-- Settles O5: the digits of the number a byte string spells are its bytes, and each operand stands at its place. -/
theorem operandsTravelMostSignificantByteFirst : Obligations.OperandsTravelMostSignificantByteFirst := by
  unfold Obligations.OperandsTravelMostSignificantByteFirst
  intro w
  have hW := mul_numBytes_bits w
  have hpos : 0 < numBytes w.bits := by cases w <;> decide
  refine ⟨fun o ho => ⟨?_, ?_, ?_, ?_⟩, fun v => ?_, fun mode poly init xorout residue hm hp hi hx hr =>
    ⟨decode_config hm hp hi hx, decode_configu hm hp hi hx hr⟩⟩
  · rw [toNat_wordOfBytes hW ho, bytesValue_eq_sum, ho]
  · exact byteAt_wordOfBytes hW ho hpos
  · have hlow := byteAt_wordOfBytes hW ho (Nat.sub_one_lt_of_lt hpos)
    rwa [Nat.sub_self] at hlow
  · rw [encodeResponse, wordBytes_wordOfBytes hW ho]
  · exact ⟨wordBytes v, length_wordBytes v, wordOfBytes_wordBytes hW v, rfl⟩

/-- Settles O14: the fields are read off the mode byte as a number, a reserved one is refused by both constructors, and
a command stores a legal one or none. -/
theorem reservedModesAreRefused : Obligations.ReservedModesAreRefused := by
  unfold Obligations.ReservedModesAreRefused
  refine ⟨fun mode => ⟨modeRefin_iff mode, modeRefout_iff mode, modeOrder_eq_some_iff mode .big,
    modeOrder_eq_some_iff mode .little, modeOrder_eq_some_iff mode .native, modeOrder_eq_none_iff mode,
    modeLegal_iff mode⟩, modeLegal_iff_le, length_filter_not_modeLegal,
    fun s mode poly init xorout residue hm => ⟨exec_config_of_reserved poly init xorout hm,
      exec_configu_of_reserved poly init xorout residue hm⟩,
    fun s t i h hne => (exec_mode h).resolve_left hne⟩

end Sys2Proof.Machine
end

section
/-! SUPPORT. Bit reversal and its corner cases, at every width (40_datapath_functions.md R91 to R93). -/

namespace Sys2Proof.Machine

variable {W : Nat}

@[simp] theorem rev_rev (v : BitVec W) : rev (rev v) = v := BitVec.reverse_reverse_eq

@[simp] theorem rev_zero : rev 0#W = 0#W := BitVec.reverse_eq_zero_iff.2 rfl

@[simp] theorem rev_allOnes : rev (BitVec.allOnes W) = BitVec.allOnes W := by
  refine BitVec.eq_of_getLsbD_eq fun i hi => ?_
  have hmirror : W - 1 - i < W := by omega
  rw [getLsbD_rev _ i hi, BitVec.getLsbD_allOnes, BitVec.getLsbD_allOnes, decide_eq_true hi, decide_eq_true hmirror]

/-- The only bit of 1 moves to the top. -/
theorem rev_one : rev 1#W = BitVec.twoPow W (W - 1) := by
  refine BitVec.eq_of_getLsbD_eq fun i hi => ?_
  have hbit : W - 1 - i = 0 ↔ W - 1 = i := by omega
  rw [getLsbD_rev _ i hi, BitVec.getLsbD_twoPow]
  simp [hbit]

theorem toNat_rev_one (hW : 0 < W) : (rev 1#W).toNat = 2 ^ (W - 1) := by
  rw [rev_one, BitVec.toNat_twoPow_of_lt (Nat.sub_one_lt_of_lt hW)]

theorem initializeRegister_eq_self {init : BitVec W} (h : rev init = init) (refin : Bool) :
    initializeRegister init refin = init := by
  cases refin with
  | false => rfl
  | true => exact h

theorem reflectConditionally_self (f : Bool) (v : BitVec W) : reflectConditionally f f v = v := by
  cases f <;> rfl

theorem reflectConditionally_of_ne {refin refout : Bool} (h : refin ≠ refout) (v : BitVec W) :
    reflectConditionally refin refout v = rev v :=
  if_pos (bne_iff_ne.2 h)

end Sys2Proof.Machine
end

section
/-! SUPPORT. The byte order and the other commands: a command that ignores `ORDER` at another mode byte with the same two
flags, and two constructions with the same `REFIN` (40_datapath_functions.md R98). -/

namespace Sys2Proof.Machine

variable {s t : State} {i : Instr}

/-- A change of the state that keeps `CONFIGURED` goes through the configured test. -/
theorem whenConfigured_mapNext {g : State → State} {k k' : Result} (hc : (g s).configured = s.configured)
    (hr : raiseError .notConfigured (g s) = g (raiseError .notConfigured s)) (hk : k' = mapNext g k) :
    whenConfigured (g s) k' = mapNext g (whenConfigured s k) := by
  cases hs : s.configured with
  | false => rw [whenConfigured_of_false k hs, whenConfigured_of_false k' (hc.trans hs), hr, mapNext]
  | true => rw [whenConfigured_of_true k hs, whenConfigured_of_true k' (hc.trans hs), hk]

section WithMode

variable {mode : Byte}

theorem whenConfigured_withMode {k k' : Result} (hk : k' = mapNext (·.withMode mode) k) :
    whenConfigured (s.withMode mode) k' = mapNext (·.withMode mode) (whenConfigured s k) :=
  whenConfigured_mapNext (g := (·.withMode mode)) rfl rfl hk

theorem readTable_withMode (a : Byte) {k k' : BitVec s.width.bits → Result}
    (hk : ∀ v, k' v = mapNext (·.withMode mode) (k v)) :
    readTable (s.withMode mode) a k' = mapNext (·.withMode mode) (readTable s a k) := by
  cases hv : s.engine.table.read a with
  | none =>
    rw [readTable_of_none k hv]
    exact readTable_of_none (s := s.withMode mode) k' hv
  | some v =>
    rw [readTable_of_some k hv]
    exact (readTable_of_some (s := s.withMode mode) k' hv).trans (hk v)

variable (hin : modeRefin mode = s.engine.refin) (hout : modeRefout mode = s.engine.refout)
include hin

theorem withMode_refin : (s.withMode mode).engine.refin = s.engine.refin := hin

include hout

theorem withMode_checksum : (s.withMode mode).engine.checksum = s.engine.checksum := by
  change finalize (modeRefin mode) (modeRefout mode) s.engine.xorout s.engine.reg = _
  rw [hin, hout, Engine.checksum]

theorem withMode_verifies : (s.withMode mode).engine.verifies = s.engine.verifies := by
  change (reflectConditionally (modeRefin mode) (modeRefout mode) s.engine.reg == s.engine.residue) = _
  rw [hin, hout, Engine.verifies]

/-- `ORDER` is not read by these commands: with the same two flags they do the same (10_state.md R36). -/
theorem exec_withMode (hi : ignoresOrder i = true) :
    exec i (s.withMode mode) = mapNext (·.withMode mode) (exec i s) := by
  have hrefin := withMode_refin hin
  cases i with
  | config | configu | rdsumb => cases hi
  | init =>
    refine whenConfigured_withMode ?_
    rw [hrefin]
    rfl
  | update b =>
    refine whenConfigured_withMode ?_
    rw [hrefin]
    exact readTable_withMode _ fun _ => rfl
  | rdsum =>
    refine whenConfigured_withMode ?_
    rw [withMode_checksum hin hout]
    rfl
  | verify =>
    refine whenConfigured_withMode ?_
    rw [withMode_verifies hin hout]
    rfl
  | rdtable a => exact whenConfigured_withMode (readTable_withMode a fun _ => rfl)
  | rdres => exact whenConfigured_withMode rfl

end WithMode

section Construct

variable {mode : Byte} {poly init xorout residue : Word s.width}

theorem exec_config_next (hm : modeLegal mode = true) (h : exec (.config s.width mode poly init xorout) s = .next t) :
    ∃ residue, t = constructed s mode poly init xorout residue := by
  obtain ⟨f, hf⟩ := modeFields_of_modeLegal hm
  rw [exec_config_of_fields poly init xorout hf] at h
  exact ⟨_, (Host.Outcome.next.inj h).symm⟩

theorem exec_configu_next (hm : modeLegal mode = true)
    (h : exec (.configu s.width mode poly init xorout residue) s = .next t) :
    t = constructed s mode poly init xorout residue := by
  obtain ⟨f, hf⟩ := modeFields_of_modeLegal hm
  rw [exec_configu_of_fields poly init xorout residue hf] at h
  exact (Host.Outcome.next.inj h).symm

end Construct

/-- With the same `REFIN` two constructions leave states that differ in `MODE` and `RESIDUE` at most: the table and the
initial register depend on no other bit of the mode. -/
theorem constructed_arch_of_modeRefin_eq {mode mode' : Byte} (h : modeRefin mode = modeRefin mode')
    (poly init xorout residue residue' : BitVec s.width.bits) :
    (constructed s mode' poly init xorout residue').arch =
      { (constructed s mode poly init xorout residue).arch with mode := mode', residue := residue'.toNat } := by
  simp [constructed, State.arch, h]

end Sys2Proof.Machine
end

section
/-! CERTIFICATES. The statements of 40_datapath_functions.md. -/

namespace Sys2Proof.Machine

/-- Settles O25: the commands that ignore `ORDER` carry the other mode byte along, and a construction takes nothing but
`REFIN` and the derived residue from its mode. -/
theorem byteOrderDoesNotAffectTheArithmetic : Obligations.ByteOrderDoesNotAffectTheArithmetic := by
  unfold Obligations.ByteOrderDoesNotAffectTheArithmetic
  refine ⟨fun s t mode i hin hout hi h => ?_, fun s t t' mode mode' poly init xorout hm hm' hrefin h h' => ?_,
    fun s t t' mode mode' poly init xorout residue hm hm' hrefin h h' => ?_⟩
  · rw [exec_withMode hin hout hi, h, mapNext]
  · obtain ⟨residue, rfl⟩ := exec_config_next hm h
    obtain ⟨residue', rfl⟩ := exec_config_next hm' h'
    exact constructed_arch_of_modeRefin_eq hrefin poly init xorout residue residue'
  · obtain rfl := exec_configu_next hm h
    obtain rfl := exec_configu_next hm' h'
    exact constructed_arch_of_modeRefin_eq hrefin poly init xorout residue residue

/-- Settles O40: bit by bit, so that every width is covered; the one bit of 1 moves to the top. -/
theorem reflectionReversesTheBits : Obligations.ReflectionReversesTheBits := by
  unfold Obligations.ReflectionReversesTheBits
  refine ⟨fun w v => ⟨getLsbD_rev v, rev_rev v⟩, fun w => ⟨rev_zero, rev_allOnes, toNat_rev_one ?_⟩, by decide +kernel⟩
  cases w <;> decide

/-- Settles O41: the two corner values are their own reversals, so either flag leaves them. -/
theorem initialRegister : Obligations.InitialRegister := by
  unfold Obligations.InitialRegister
  exact ⟨fun w init => ⟨getLsbD_rev init, rfl⟩,
    fun w refin => ⟨initializeRegister_eq_self rev_zero refin, initializeRegister_eq_self rev_allOnes refin⟩,
    by decide +kernel, rfl, initializeRegister_eq_self rev_allOnes true⟩

/-- Settles O42: equal flags leave the value, different flags reverse it. -/
theorem conditionalReflection : Obligations.ConditionalReflection := by
  unfold Obligations.ConditionalReflection
  refine ⟨fun w v => ⟨reflectConditionally_self false v, reflectConditionally_self true v, fun i hi => ?_⟩,
    by decide +kernel, reflectConditionally_self true _⟩
  rw [reflectConditionally_of_ne (by decide), reflectConditionally_of_ne (by decide), getLsbD_rev v i hi]
  exact ⟨rfl, rfl⟩

end Sys2Proof.Machine
end

section
/-! SUPPORT. A string whose length is not the one its opcode fixes (30_encoding.md R61, R69). -/

namespace Sys2Proof.Machine

variable {s : State} {w : Width}

@[simp] theorem opcodeOfByte_opcodeByte (op : Opcode) : opcodeOfByte (opcodeByte op) = some op := by
  cases op <;> rfl

theorem decode_of_length_ne {op : Opcode} {bs : List Byte}
    (hlen : (opcodeByte op :: bs).length ≠ opcodeLength w.bits op) :
    decode w (opcodeByte op :: bs) = .error .badLength := by
  simp only [decode, opcodeOfByte_opcodeByte, if_neg hlen]

theorem eq_present_of_inputs {c : List Byte} {rest : List HostInput} (h : s.inputs = .command c :: rest) :
    s = present c { s with inputs := rest } := by
  rw [present, ← h]

theorem refusesOtherLengths_opcodeByte (op : Opcode) :
    refusesOtherLengths (opcodeByte op) fun w => opcodeLength w.bits op := by
  intro s c rest hin hlen
  rw [eq_present_of_inputs hin]
  exact step_present_of_error (s := { s with inputs := rest }) (decode_of_length_ne hlen)

end Sys2Proof.Machine
end

section
/-! SUPPORT. The generator at index 0 and at the zero polynomial (41_table_generator.md R112, R120, R124). -/

namespace Sys2Proof.Machine

variable {W : Nat}

@[simp] theorem shiftStep_zero_value (rp : BitVec W) : shiftStep 0#W rp = 0#W := by simp [shiftStep]

@[simp] theorem shiftStep_zero_poly (c : BitVec W) : shiftStep c 0#W = c >>> 1 := by simp [shiftStep]

theorem shiftSteps_zero_value (n : Nat) (rp : BitVec W) : shiftSteps n 0#W rp = 0#W := by
  induction n with
  | zero => rfl
  | succ n ih => rw [shiftSteps_succ, shiftStep_zero_value, ih]

/-- Without a polynomial the steps only shift. -/
theorem shiftSteps_zero_poly (n : Nat) (c : BitVec W) : shiftSteps n c 0#W = c >>> n := by
  induction n generalizing c with
  | zero => simp
  | succ n ih =>
    rw [shiftSteps_succ, shiftStep_zero_poly, ih, ← BitVec.shiftRight_add, Nat.add_comm]

/-- Eight shifts leave nothing of a byte, at any width. -/
theorem setWidth_ushiftRight_eight (b : Byte) : b.setWidth W >>> 8 = 0#W := by
  apply BitVec.eq_of_toNat_eq
  have hlt : b.toNat % 2 ^ W < 256 := Nat.lt_of_le_of_lt (Nat.mod_le _ _) b.isLt
  simp [Nat.shiftRight_eq_div_pow, hlt]

theorem tableEntry_zero_index (poly : BitVec W) (refin : Bool) : tableEntry poly refin 0 = 0#W := by
  cases refin with
  | false | true => simp [tableEntry, shiftSteps_zero_value]

theorem tableEntry_zero_poly (refin : Bool) (i : Byte) : tableEntry 0#W refin i = 0#W := by
  cases refin with
  | false | true => simp [tableEntry, shiftSteps_zero_poly, setWidth_ushiftRight_eight]

theorem foldByte_zero_poly (refin : Bool) (r : BitVec W) (b : Byte) :
    foldByte refin r b (tableEntry 0#W refin) = if refin then r >>> 8 else r <<< 8 := by
  simp [foldByte, foldStep, tableEntry_zero_poly]

/-- The residue of CRC-32/ISO-HDLC, whatever `NATIVE_ORDER` is: `Little` does not ask for it. -/
theorem deriveResidue_isoHdlc (e : ByteEnd) :
    deriveResidue e .little 0x04C11DB7#32 0xFFFFFFFF#32 true true 0xFFFFFFFF#32 = 0xDEBB20E3#32 := by
  change deriveResidue .little .little 0x04C11DB7#32 0xFFFFFFFF#32 true true 0xFFFFFFFF#32 = 0xDEBB20E3#32
  decide +kernel

end Sys2Proof.Machine
end

section
/-! SUPPORT. The state after a construction, field by field, and the read-back of its residue
(41_table_generator.md R120 to R126). -/

namespace Sys2Proof.Machine

variable {s t : State} {mode : Byte} {f : ModeFields}

theorem order_eq_iff (hf : modeFields mode = some f) (o : Order) :
    f.order = o ↔ mode.extractLsb' 2 2 = BitVec.ofNat 2 (orderCode o) := by
  obtain ⟨-, horder, -, -⟩ := modeFields_eq_some.1 hf
  have hcode : (BitVec.ofNat 2 (orderCode o)).toNat = orderCode o := by cases o <;> rfl
  rw [← Option.some_inj, ← horder, modeOrder, orderOfBits_eq_some_iff, ← BitVec.toNat_inj, hcode]

/-- Every register, the whole table and the flag are written from the operands, and `ACK` is sent. -/
theorem constructed_eq (hf : modeFields mode = some f) (poly init xorout residue : BitVec s.width.bits) :
    constructed s mode poly init xorout residue =
      { s with
        engine :=
          { poly := poly
            init := init
            xorout := xorout
            residue := residue
            mode := mode
            table := s.engine.table.fill (tableEntry poly f.refin)
            reg := initializeRegister init f.refin }
        configured := true
        responses := s.responses ++ [[0x00]] } := by
  obtain ⟨-, -, hrefin, -⟩ := modeFields_eq_some.1 hf
  rw [hrefin]
  rfl

theorem constructed_tableAt (poly init xorout residue : BitVec s.width.bits) (i : Byte) :
    (constructed s mode poly init xorout residue).tableAt i =
      some (tableEntry poly (modeRefin mode) i).toNat :=
  congrArg (Option.map BitVec.toNat) (constructed_tableMatches mode poly init xorout residue i)

theorem Memory.fill_fill {W : Nat} (m : Memory W) (T T' : Byte → BitVec W) (hwf : m.wf = true) :
    (m.fill T).fill T' = m.fill T' :=
  Memory.fill_eq_fill _ m T' (Memory.wf_fill m T hwf) hwf

/-- A second construction with the same operands fills the table with the entries it holds already. -/
theorem newEngine_newEngine_table {W : Nat} {m : Memory W} (hwf : m.wf = true)
    (poly init xorout residue residue' : BitVec W) :
    newEngine (newEngine m mode poly init xorout residue').table mode poly init xorout residue =
      newEngine m mode poly init xorout residue := by
  simp only [newEngine, Memory.fill_fill _ _ _ hwf]

/-- So the second one only adds its response. -/
theorem constructed_constructed (hwf : s.engine.table.wf = true)
    (poly init xorout residue residue' : BitVec s.width.bits) :
    constructed (constructed s mode poly init xorout residue') mode poly init xorout residue =
      (constructed s mode poly init xorout residue).answer [0x00] :=
  congrArg (fun e => (respond (W := s.width.bits) .ack (installEngine s e)).answer [0x00])
    (newEngine_newEngine_table hwf poly init xorout residue residue')

/-- `CONFIG` after the same `CONFIG` changes no register and no entry; a refused one changes nothing at all. -/
theorem exec_config_twice_arch {t' : State} {poly init xorout : Word s.width} (hwf : s.engine.table.wf = true)
    (h : exec (.config s.width mode poly init xorout) s = .next t)
    (h' : exec (.config s.width mode poly init xorout) t = .next t') : t'.arch = t.arch := by
  cases hf : modeFields mode with
  | none =>
    have hm := modeFields_eq_none.1 hf
    obtain rfl := Host.Outcome.next.inj ((exec_config_of_reserved poly init xorout hm).symm.trans h)
    obtain rfl := Host.Outcome.next.inj
      ((exec_config_of_reserved (s := s.answer [0x83]) poly init xorout hm).symm.trans h')
    rfl
  | some f =>
    obtain rfl := Host.Outcome.next.inj ((exec_config_of_fields poly init xorout hf).symm.trans h)
    obtain rfl := Host.Outcome.next.inj ((exec_config_of_fields (s := constructed s mode poly init xorout _)
      poly init xorout hf).symm.trans h')
    exact (congrArg State.arch (constructed_constructed hwf poly init xorout _ _)).trans rfl

theorem exec_rdres_of_configured (hc : s.configured = true) :
    exec .rdres s = .next (s.answer (0x01 :: wordBytes s.engine.residue)) :=
  whenConfigured_of_true _ hc

theorem exec_rdres_constructed (poly init xorout residue : BitVec s.width.bits) :
    exec .rdres (constructed s mode poly init xorout residue) =
      .next ((constructed s mode poly init xorout residue).answer (0x01 :: wordBytes residue)) :=
  exec_rdres_of_configured rfl

end Sys2Proof.Machine
end

section
/-! SUPPORT. A command that does not read `RESIDUE`, under another residue (10_state.md R36;
41_table_generator.md R122). -/

namespace Sys2Proof.Machine

variable {s : State} {i : Instr} {W : Nat}

/-- The state with a residue that is given at a width of its own. -/
def State.putResidue (r : BitVec W) (s : State) : State := s.withResidue (r.setWidth s.width.bits)

theorem putResidue_eq_withResidue (r : BitVec s.width.bits) : s.putResidue r = s.withResidue r := by
  rw [State.putResidue, BitVec.setWidth_eq]

theorem whenConfigured_putResidue (r : BitVec W) {k k' : Result} (hk : k' = mapNext (·.putResidue r) k) :
    whenConfigured (s.putResidue r) k' = mapNext (·.putResidue r) (whenConfigured s k) :=
  whenConfigured_mapNext (g := (·.putResidue r)) rfl rfl hk

theorem readTable_putResidue (r : BitVec W) (a : Byte) {k k' : BitVec s.width.bits → Result}
    (hk : ∀ v, k' v = mapNext (·.putResidue r) (k v)) :
    readTable (s.putResidue r) a k' = mapNext (·.putResidue r) (readTable s a k) := by
  cases hv : s.engine.table.read a with
  | none =>
    rw [readTable_of_none k hv]
    exact readTable_of_none (s := s.putResidue r) k' hv
  | some v =>
    rw [readTable_of_some k hv, ← hk]
    exact readTable_of_some (s := s.putResidue r) k' hv

/-- These commands do the same under any residue, and leave it. -/
theorem exec_putResidue (hi : ignoresResidue i = true) (r : BitVec W) (s : State) :
    exec i (s.putResidue r) = mapNext (·.putResidue r) (exec i s) := by
  cases i with
  | config | configu | verify | rdres => cases hi
  | init | rdsum => exact whenConfigured_putResidue r rfl
  | update b => exact whenConfigured_putResidue r (readTable_putResidue r _ fun _ => rfl)
  | rdsumb =>
    refine whenConfigured_putResidue r ?_
    change (match modeOrder s.engine.mode with | some o => _ | none => _) = _
    cases modeOrder s.engine.mode <;> rfl
  | rdtable a => exact whenConfigured_putResidue r (readTable_putResidue r a fun _ => rfl)

end Sys2Proof.Machine
end

section
/-! SUPPORT. The two construction examples of 41_table_generator.md, from the state after reset. -/

namespace Sys2Proof.Machine

/-- The rule's example: CRC-32/ISO-HDLC from reset (41_table_generator.md R120). -/
theorem step_config_example (e : ByteEnd) : ∃ t,
    step (present [0x01, 0x07, 0x04, 0xC1, 0x1D, 0xB7, 0xFF, 0xFF, 0xFF, 0xFF, 0xFF, 0xFF, 0xFF, 0xFF]
      (State.resetOf .w32 e)) = .next t ∧
      t.arch.poly = 0x04C11DB7 ∧ t.arch.mode = 0x07 ∧ t.arch.reg = 0xFFFFFFFF ∧ t.arch.residue = 0xDEBB20E3 ∧
      t.tableAt 1 = some 0x77073096 := by
  have hdecode : decode .w32 [0x01, 0x07, 0x04, 0xC1, 0x1D, 0xB7, 0xFF, 0xFF, 0xFF, 0xFF, 0xFF, 0xFF, 0xFF, 0xFF] =
      .ok (.config .w32 0x07 0x04C11DB7#32 0xFFFFFFFF#32 0xFFFFFFFF#32) := by decide +kernel
  have hf : modeFields 0x07 = some ⟨true, true, .little⟩ := by decide
  have hreg : initializeRegister 0xFFFFFFFF#32 true = 0xFFFFFFFF#32 := initializeRegister_eq_self rev_allOnes true
  have hentry : (tableEntry 0x04C11DB7#32 true 1).toNat = 0x77073096 := by decide +kernel
  have hexec : exec (.config .w32 0x07 0x04C11DB7#32 0xFFFFFFFF#32 0xFFFFFFFF#32) (State.resetOf .w32 e) =
      .next (constructed (State.resetOf .w32 e) 0x07 0x04C11DB7#32 0xFFFFFFFF#32 0xFFFFFFFF#32 0xDEBB20E3#32) := by
    rw [← deriveResidue_isoHdlc e]
    exact exec_config_of_fields (s := State.resetOf .w32 e) _ _ _ hf
  exact ⟨_, (step_present_of_ok hdecode).trans hexec, rfl, rfl, congrArg BitVec.toNat hreg, rfl,
    (constructed_tableAt _ _ _ _ 1).trans (congrArg some hentry)⟩

/-- The rule's example: an unchecked residue at width 16 (41_table_generator.md R122). -/
theorem step_configu_example (e : ByteEnd) : ∃ t,
    step (present [0x02, 0x00, 0x10, 0x21, 0x00, 0x00, 0x00, 0x00, 0x12, 0x34] (State.resetOf .w16 e)) = .next t ∧
      t.arch.poly = 0x1021 ∧ t.arch.init = 0 ∧ t.arch.xorout = 0 ∧ t.arch.mode = 0 ∧ t.arch.residue = 0x1234 ∧
      deriveResidue e .big 0x1021#16 0 false false 0 = 0 := by
  have hdecode : decode .w16 [0x02, 0x00, 0x10, 0x21, 0x00, 0x00, 0x00, 0x00, 0x12, 0x34] =
      .ok (.configu .w16 0x00 0x1021#16 0#16 0#16 0x1234#16) := by decide +kernel
  have hf : modeFields 0x00 = some ⟨false, false, .big⟩ := by decide
  have hresidue : deriveResidue .big .big 0x1021#16 0 false false 0 = 0 := by decide +kernel
  exact ⟨_, (step_present_of_ok (s := State.resetOf .w16 e) hdecode).trans
    (exec_configu_of_fields (s := State.resetOf .w16 e) _ _ _ _ hf), rfl, rfl, rfl, rfl, rfl, hresidue⟩

end Sys2Proof.Machine
end

section
/-! CERTIFICATES. The statements of 41_table_generator.md. -/

namespace Sys2Proof.Machine

/-- Settles O29: a legal mode installs the engine written from the operands, anything else is refused; the zero
polynomial leaves nothing of the eight shifts, and a second `CONFIG` fills the same table. -/
theorem configCommand : Obligations.ConfigCommand := by
  unfold Obligations.ConfigCommand
  refine ⟨fun s mode poly init xorout f hf => ?_,
    fun s mode poly init xorout hf => exec_config_of_reserved poly init xorout (modeFields_eq_none.1 hf),
    refusesOtherLengths_opcodeByte .config,
    fun w refin i b r => ⟨tableEntry_zero_poly refin i, foldByte_zero_poly refin r b⟩,
    fun s t t' mode poly init xorout hwf h h' => exec_config_twice_arch hwf h h',
    step_config_example⟩
  obtain ⟨-, -, hrefin, hrefout⟩ := modeFields_eq_some.1 hf
  refine ⟨hrefin, hrefout, order_eq_iff hf .big, order_eq_iff hf .little, order_eq_iff hf .native,
    s.engine.table.fill (tableEntry poly f.refin), Memory.read_fill _ _, ?_⟩
  rw [exec_config_of_fields poly init xorout hf, constructed_eq hf]

/-- Settles O30: both constructors install the same engine but for the residue, which only `VERIFY` and `RDRES` read. -/
theorem configuCommand : Obligations.ConfiguCommand := by
  unfold Obligations.ConfiguCommand
  refine ⟨fun s mode poly init xorout residue f hf => ?_,
    fun s mode poly init xorout residue hf =>
      exec_configu_of_reserved poly init xorout residue (modeFields_eq_none.1 hf),
    refusesOtherLengths_opcodeByte .configu,
    fun s mode poly init xorout f hf =>
      (exec_configu_of_fields poly init xorout _ hf).trans (exec_config_of_fields poly init xorout hf).symm,
    fun s t r i hi h => ?_, step_configu_example⟩
  · obtain ⟨-, -, hrefin, -⟩ := modeFields_eq_some.1 hf
    refine ⟨hrefin, s.engine.table.fill (tableEntry poly f.refin), Memory.read_fill _ _, ?_⟩
    rw [exec_configu_of_fields poly init xorout residue hf, constructed_eq hf]
  · rw [← putResidue_eq_withResidue, exec_putResidue hi, h]
    rfl

/-- Settles O38: the entry read is the generator's by the invariant, and the generator leaves 0 at 0. -/
theorem rdtableCommand : Obligations.RdtableCommand := by
  unfold Obligations.RdtableCommand
  refine ⟨fun w i => (decode_of_length rfl rfl).trans rfl, refusesOtherLengths_opcodeByte .rdtable,
    fun i => refusedUnconfigured_of_not_construction rfl, fun s i ⟨_, hconfigured⟩ hc => ?_,
    fun w poly refin => tableEntry_zero_index poly refin, by decide +kernel⟩
  obtain ⟨-, hmatches⟩ := hconfigured hc
  exact exec_rdtable_of_read hc (hmatches i)

/-- Settles O39: `RDRES` reads the residue register, and a constructor leaves there the residue it installs. -/
theorem rdresCommand : Obligations.RdresCommand := by
  unfold Obligations.RdresCommand
  refine ⟨fun w => (decode_of_length rfl rfl).trans rfl, refusesOtherLengths_opcodeByte .rdres,
    refusedUnconfigured_of_not_construction rfl, fun s hc => exec_rdres_of_configured hc,
    fun s t mode poly init xorout f hf h => ?_, fun s t mode poly init xorout residue hm h => ?_, fun e => ?_⟩
  · obtain rfl := Host.Outcome.next.inj ((exec_config_of_fields poly init xorout hf).symm.trans h)
    exact exec_rdres_constructed poly init xorout _
  · obtain rfl := exec_configu_next hm h
    exact exec_rdres_constructed poly init xorout residue
  · rw [deriveResidue_isoHdlc]
    decide +kernel

end Sys2Proof.Machine
end

section
/-! SUPPORT. One fold step in each direction, and the fold of zero bytes from zero (42_accumulator.md R141). -/

namespace Sys2Proof.Machine

variable {W : Nat}

theorem eight_le_bits (w : Width) : 8 ≤ w.bits := by cases w <;> decide

/-- A byte taken from a register at bit `k`, after a byte was XORed into the register there. -/
theorem setWidth_ushiftRight_xor (hW : 8 ≤ W) (r : BitVec W) (b : Byte) (k : Nat) :
    ((r >>> k) ^^^ b.setWidth W).setWidth 8 = r.extractLsb' k 8 ^^^ b := by
  rw [BitVec.setWidth_xor, BitVec.setWidth_ushiftRight_eq_extractLsb, BitVec.setWidth_setWidth_of_le b hW,
    BitVec.setWidth_eq]

theorem foldByte_reflected (hW : 8 ≤ W) (r : BitVec W) (b : Byte) (T : Byte → BitVec W) :
    foldByte true r b T = T (r.extractLsb' 0 8 ^^^ b) ^^^ (r >>> 8) := by
  rw [← setWidth_ushiftRight_xor hW r b 0, BitVec.ushiftRight_zero]
  rfl

theorem foldByte_normal (hW : 8 ≤ W) (r : BitVec W) (b : Byte) (T : Byte → BitVec W) :
    foldByte false r b T = T (r.extractLsb' (W - 8) 8 ^^^ b) ^^^ (r <<< 8) := by
  rw [← setWidth_ushiftRight_xor hW r b (W - 8)]
  rfl

/-- Both directions through the generator's table, as 42_accumulator.md R148 writes the effect of `UPDATE`. -/
theorem foldByte_tableEntry (hW : 8 ≤ W) (refin : Bool) (r : BitVec W) (b : Byte) (poly : BitVec W) :
    foldByte refin r b (tableEntry poly refin) =
      if refin then tableEntry poly true (r.extractLsb' 0 8 ^^^ b) ^^^ (r >>> 8)
      else tableEntry poly false (r.extractLsb' (W - 8) 8 ^^^ b) ^^^ (r <<< 8) := by
  cases refin with
  | false => exact foldByte_normal hW r b _
  | true => exact foldByte_reflected hW r b _

theorem foldByte_zero (refin : Bool) (poly : BitVec W) : foldByte refin 0#W 0 (tableEntry poly refin) = 0#W := by
  have hindex : foldIndex refin 0#W 0 = 0 := by cases refin <;> simp [foldIndex]
  rw [foldByte, hindex, tableEntry_zero_index]
  cases refin <;> simp [foldStep]

/-- The streaming law (42_accumulator.md R144). -/
theorem foldBytes_append (refin : Bool) (r : BitVec W) (a b : List Byte) (T : Byte → BitVec W) :
    foldBytes refin r (a ++ b) T = foldBytes refin (foldBytes refin r a T) b T := by
  induction a generalizing r with
  | nil => rfl
  | cons x a ih => exact ih _

theorem foldBytes_zero (refin : Bool) (poly : BitVec W) {m : List Byte} (hm : ∀ b ∈ m, b = 0) :
    foldBytes refin 0#W m (tableEntry poly refin) = 0#W := by
  induction m with
  | nil => rfl
  | cons b m ih =>
    obtain ⟨rfl, htail⟩ := List.forall_mem_cons.1 hm
    rw [foldBytes_cons, foldByte_zero, ih htail]

theorem eq_zero_of_mem_toEndianBytes_zero {n : ByteEnd} {order : Order} {b : Byte}
    (hb : b ∈ toEndianBytes n 0#W order) : b = 0 := by
  have hbyte (k : Nat) : byteAt 0#W k = 0 := by simp [byteAt]
  cases he : effective n order with
  | big | little =>
    rw [toEndianBytes, he, bytesFrom] at hb
    obtain ⟨k, -, rfl⟩ := List.mem_map.1 hb
    exact hbyte _

theorem initializeRegister_zero (refin : Bool) : initializeRegister 0#W refin = 0#W :=
  initializeRegister_eq_self rev_zero refin

theorem reflectConditionally_zero (refin refout : Bool) : reflectConditionally refin refout 0#W = 0#W := by
  simp [reflectConditionally]

theorem reflectConditionally_initializeRegister_zero (refin refout : Bool) :
    reflectConditionally refin refout (initializeRegister 0#W refin) = 0#W := by
  rw [initializeRegister_zero, reflectConditionally_zero]

/-- With `init = 0` and `xorout = 0` the derived residue is 0 (42_accumulator.md R156). -/
theorem deriveResidue_zero (n : ByteEnd) (order : Order) (poly : BitVec W) (refin refout : Bool) :
    deriveResidue n order poly 0#W refin refout 0#W = 0#W := by
  simp only [deriveResidue, initializeRegister_zero, finalize, reflectConditionally_zero, BitVec.xor_zero]
  rw [foldBytes_zero refin poly fun b => eq_zero_of_mem_toEndianBytes_zero, reflectConditionally_zero]

end Sys2Proof.Machine
end

section
/-! SUPPORT. What the accumulator and finalise commands answer in a configured state, with their whole effect
(42_accumulator.md R146 to R156). -/

namespace Sys2Proof.Machine

variable {s t : State} {i : Instr}

theorem modeLegal_of_inv (hinv : s.Inv) (hc : s.configured = true) : modeLegal s.engine.mode = true := by
  obtain ⟨-, hconfigured⟩ := hinv
  exact (hconfigured hc).left

theorem tableMatches_of_inv (hinv : s.Inv) (hc : s.configured = true) : s.engine.tableMatches := by
  obtain ⟨-, hconfigured⟩ := hinv
  exact (hconfigured hc).right

theorem exec_init_of_configured (hc : s.configured = true) :
    exec .init s = .next ((s.withReg (initializeRegister s.engine.init s.engine.refin)).answer [0x00]) :=
  whenConfigured_of_true _ hc

theorem exec_update_of_inv (hinv : s.Inv) (hc : s.configured = true) (b : Byte) :
    exec (.update b) s =
      .next ((s.withReg (foldByte s.engine.refin s.engine.reg b (tableEntry s.engine.poly s.engine.refin))).answer
        [0x00]) :=
  (whenConfigured_of_true _ hc).trans (readTable_of_some _ (tableMatches_of_inv hinv hc _))

theorem exec_rdsum_of_configured (hc : s.configured = true) :
    exec .rdsum s = .next (s.answer (0x01 :: wordBytes s.engine.checksum)) :=
  whenConfigured_of_true _ hc

theorem exec_rdsumb_of_modeOrder {order : Order} (hc : s.configured = true)
    (ho : modeOrder s.engine.mode = some order) :
    exec .rdsumb s = .next (s.answer (0x02 :: toEndianBytes s.nativeOrder s.engine.checksum order)) := by
  refine (whenConfigured_of_true _ hc).trans ?_
  rw [ho]
  rfl

theorem exec_verify_of_configured (hc : s.configured = true) :
    exec .verify s = .next (s.answer [0x03, if s.engine.verifies then 0x01 else 0x00]) :=
  whenConfigured_of_true _ hc

theorem verifies_iff {W : Nat} (e : Engine W) :
    e.verifies = true ↔ reflectConditionally e.refin e.refout e.reg = e.residue := beq_iff_eq

/-- `VERIFY` with its comparison written out (42_accumulator.md R156). -/
theorem exec_verify_eq_residue (hc : s.configured = true) :
    exec .verify s = .next (s.answer [0x03,
      if reflectConditionally s.engine.refin s.engine.refout s.engine.reg = s.engine.residue then 0x01 else 0x00]) := by
  simp only [exec_verify_of_configured hc, verifies_iff]

theorem exec_rdtable_of_inv (hinv : s.Inv) (hc : s.configured = true) (a : Byte) :
    exec (.rdtable a) s = .next (s.answer (0x01 :: wordBytes (tableEntry s.engine.poly s.engine.refin a))) :=
  exec_rdtable_of_read hc (tableMatches_of_inv hinv hc a)

/-- The order of a mode byte is what its bits 3:2 hold (10_state.md R25). -/
theorem eq_iff_of_modeOrder {mode : Byte} {order : Order} (ho : modeOrder mode = some order) (o : Order) :
    order = o ↔ mode.extractLsb' 2 2 = BitVec.ofNat 2 (orderCode o) := by
  have hcode : (BitVec.ofNat 2 (orderCode o)).toNat = orderCode o := by cases o <;> rfl
  rw [← Option.some_inj, ← ho, modeOrder, orderOfBits_eq_some_iff, ← BitVec.toNat_inj, hcode]

/-! ### The freshly initialised accumulator -/

theorem fresh_of_exec_init (h : exec .init s = .next t) (hc : t.configured = true) : t.fresh := by
  rcases execInit_next h with ⟨hs, rfl⟩ | ⟨-, rfl⟩
  · simp [hs] at hc
  · rfl

/-- What an acknowledged construction command leaves. -/
theorem exec_construction_acked (hi : isConstruction i = true) (h : exec i s = .next t)
    (hr : t.responses = s.responses ++ [[0x00]]) :
    ∃ (mode : Byte) (poly init xorout residue : BitVec s.width.bits), modeLegal mode = true ∧
      t = constructed s mode poly init xorout residue := by
  rcases exec_next_of_construction hi h with hacked | rfl | rfl
  · exact hacked
  · simp [errorCode] at hr
  · simp [errorCode] at hr

theorem constructed_fresh (mode : Byte) (poly init xorout residue : BitVec s.width.bits) :
    (constructed s mode poly init xorout residue).fresh := rfl

/-- `INIT` changes nothing where the accumulator is fresh, or the core not configured. -/
theorem arch_of_exec_init (hfresh : s.configured = true → s.fresh) (h : exec .init s = .next t) :
    t.arch = s.arch := by
  rcases execInit_next h with ⟨-, rfl⟩ | ⟨hc, rfl⟩
  · rfl
  · rw [← hfresh hc]
    rfl

end Sys2Proof.Machine
end

section
/-! SUPPORT. Sequences of commands: their parts in order, and the register after bytes have been folded
(42_accumulator.md R158 to R164). -/

namespace Sys2Proof.Machine

variable {s t u : State} {i : Instr} {l : List Instr}

theorem execAll_cons_of_next (h : exec i s = .next t) (l : List Instr) : execAll (i :: l) s = execAll l t := by
  simp only [execAll, h]

theorem execAll_append_of_next (h : execAll l s = .next t) (l' : List Instr) :
    execAll (l ++ l') s = execAll l' t := by
  induction l generalizing s with
  | nil =>
    obtain rfl := Host.Outcome.next.inj h
    rfl
  | cons i l ih =>
    cases hi : exec i s with
    | next v =>
      rw [execAll_cons_of_next hi] at h
      rw [List.cons_append, execAll_cons_of_next hi, ih h]
    | fault r | refused r => simp [execAll, hi] at h

theorem execAll_concat_of_next (h : execAll l s = .next t) (hi : exec i t = .next u) :
    execAll (l ++ [i]) s = .next u := by
  rw [execAll_append_of_next h, execAll_cons_of_next hi, execAll]

@[simp] theorem answers_nil (s : State) : s.answers [] = s := by simp [State.answers]

theorem answers_answers (s : State) (out out' : List (List Byte)) :
    (s.answers out).answers out' = s.answers (out ++ out') := by
  simp [State.answers]

/-- A command that writes `REG` and responds, and a sequence after it that does so: the last value stays, and the
responses follow each other. -/
theorem execAll_cons_withReg {v v' : BitVec s.width.bits} {r : List Byte} {out : List (List Byte)}
    (hi : exec i s = .next ((s.withReg v).answer r))
    (hl : execAll l ((s.withReg v).answer r) = .next ((((s.withReg v).answer r).withReg v').answers out)) :
    execAll (i :: l) s = .next ((s.withReg v').answers (r :: out)) := by
  rw [execAll_cons_of_next hi, hl]
  exact congrArg Host.Outcome.next (answers_answers (s.withReg v') [r] out)

/-- `UPDATE`s of a block fold it from whatever `REG` holds (42_accumulator.md R160). -/
theorem execAll_map_update (hinv : s.Inv) (hc : s.configured = true) (m : List Byte) :
    execAll (m.map .update) s =
      .next ((s.withReg (foldBytes s.engine.refin s.engine.reg m (tableEntry s.engine.poly s.engine.refin))).answers
        (List.replicate m.length [0x00])) := by
  induction m generalizing s with
  | nil => exact congrArg Host.Outcome.next (answers_nil s).symm
  | cons b m ih =>
    exact execAll_cons_withReg (exec_update_of_inv hinv hc b) (ih (s := (s.withReg _).answer [0x00]) hinv hc)

/-- The register after `m` has been folded since the last initialisation. -/
def State.folded (s : State) (m : List Byte) : BitVec s.width.bits :=
  foldBytes s.engine.refin (initializeRegister s.engine.init s.engine.refin) m (tableEntry s.engine.poly s.engine.refin)

theorem folded_append_singleton (s : State) (m : List Byte) (b : Byte) :
    s.folded (m ++ [b]) = foldByte s.engine.refin (s.folded m) b (tableEntry s.engine.poly s.engine.refin) := by
  rw [State.folded, foldBytes_append]
  rfl

/-- `INIT` and the `UPDATE`s of a message fold it from the initial register, whatever `REG` held
(42_accumulator.md R161). -/
theorem execAll_init_map_update (hinv : s.Inv) (hc : s.configured = true) (m : List Byte) :
    execAll (.init :: m.map .update) s =
      .next ((s.withReg (s.folded m)).answers (List.replicate (m.length + 1) [0x00])) :=
  execAll_cons_withReg (exec_init_of_configured hc)
    (execAll_map_update (s := (s.withReg (initializeRegister s.engine.init s.engine.refin)).answer [0x00]) hinv hc m)

/-- A message and one command after it: the expansions of 42_accumulator.md R161 to R164. -/
theorem execAll_init_map_update_concat (hinv : s.Inv) (hc : s.configured = true) (m : List Byte) {r : List Byte}
    (hi : ∀ t, t = (s.withReg (s.folded m)).answers (List.replicate (m.length + 1) [0x00]) →
      exec i t = .next (t.answer r)) :
    execAll (.init :: (m.map .update ++ [i])) s =
      .next ((s.withReg (s.folded m)).answers (List.replicate (m.length + 1) [0x00] ++ [r])) := by
  rw [← answers_answers]
  exact execAll_concat_of_next (execAll_init_map_update hinv hc m) (hi _ rfl)

theorem bytesSince_cons (i : Instr) (l : List Instr) (m : List Byte) :
    bytesSince (i :: l) m = bytesSince l (bytesSince [i] m) := by cases i <;> rfl

/-- A command that only reads leaves the counted bytes as they are. -/
theorem bytesSince_of_onlyReads (hi : onlyReads i = true) (m : List Byte) : bytesSince [i] m = m := by
  cases i with
  | config | configu | init | update => cases hi
  | rdsum | rdsumb | verify | rdtable | rdres => rfl

/-- In a configured state of the invariant a reading command answers, and not `NOT_CONFIGURED`. -/
theorem exec_of_onlyReads (hi : onlyReads i = true) (hinv : s.Inv) (hc : s.configured = true) :
    ∃ r, r ≠ [0x84] ∧ exec i s = .next (s.answer r) := by
  obtain ⟨order, ho⟩ := modeOrder_of_modeLegal (modeLegal_of_inv hinv hc)
  cases i with
  | config | configu | init | update => cases hi
  | rdsum => exact ⟨_, by simp, exec_rdsum_of_configured hc⟩
  | rdsumb => exact ⟨_, by simp, exec_rdsumb_of_modeOrder hc ho⟩
  | verify => exact ⟨_, by simp, exec_verify_of_configured hc⟩
  | rdtable a => exact ⟨_, by simp, exec_rdtable_of_inv hinv hc a⟩
  | rdres => exact ⟨_, by simp, exec_rdres_of_configured hc⟩

/-- One command of a sequence: `REG` holds the fold of the bytes that count after it, when it held that of the bytes
that counted before it. -/
theorem exec_folded (hinv : s.Inv) (hc : s.configured = true) {m : List Byte} (hreg : s.engine.reg = s.folded m)
    (hi : isConstruction i = false) :
    ∃ r, r ≠ [0x84] ∧ exec i s = .next ((s.withReg (s.folded (bytesSince [i] m))).answer r) := by
  have hreads (hi : onlyReads i = true) :
      ∃ r, r ≠ [0x84] ∧ exec i s = .next ((s.withReg (s.folded (bytesSince [i] m))).answer r) := by
    rw [bytesSince_of_onlyReads hi, ← hreg]
    exact exec_of_onlyReads hi hinv hc
  cases i with
  | config | configu => cases hi
  | init => exact ⟨_, by decide, exec_init_of_configured hc⟩
  | update b =>
    refine ⟨[0x00], by decide, ?_⟩
    rw [exec_update_of_inv hinv hc, hreg, ← folded_append_singleton]
    rfl
  | rdsum | rdsumb | verify | rdtable | rdres => exact hreads rfl

/-- A whole sequence, by induction over it (42_accumulator.md R158). -/
theorem execAll_folded (hinv : s.Inv) (hc : s.configured = true) {m : List Byte} (hreg : s.engine.reg = s.folded m)
    (hl : ∀ i ∈ l, isConstruction i = false) :
    ∃ out : List (List Byte), out.length = l.length ∧ [0x84] ∉ out ∧
      execAll l s = .next ((s.withReg (s.folded (bytesSince l m))).answers out) := by
  induction l generalizing s m with
  | nil =>
    refine ⟨[], rfl, List.not_mem_nil, ?_⟩
    rw [bytesSince, ← hreg]
    exact congrArg Host.Outcome.next (answers_nil s).symm
  | cons i l ih =>
    obtain ⟨hi, hl⟩ := List.forall_mem_cons.1 hl
    obtain ⟨r, hr, hexec⟩ := exec_folded hinv hc hreg hi
    obtain ⟨out, hlen, hout, hrest⟩ :=
      ih (s := (s.withReg (s.folded (bytesSince [i] m))).answer r) (m := bytesSince [i] m) hinv hc rfl hl
    rw [bytesSince_cons]
    exact ⟨r :: out, congrArg (· + 1) hlen, List.not_mem_cons_of_ne_of_not_mem hr.symm hout,
      execAll_cons_withReg hexec hrest⟩

end Sys2Proof.Machine
end

section
/-! CERTIFICATES. The statements of 42_accumulator.md. -/

namespace Sys2Proof.Machine

/-- Settles O47: in either direction the index is a byte of the register XOR the message byte, and the shift brings in
zeros. -/
theorem foldStepRule : Obligations.FoldStepRule := by
  unfold Obligations.FoldStepRule
  refine ⟨fun w r b T => ⟨foldByte_reflected (eight_le_bits w) r b T, foldByte_normal (eight_le_bits w) r b T⟩,
    fun w r => ⟨fun i hi => by simp [hi], fun i hi htop => ?_⟩,
    by decide +kernel, by decide +kernel, by decide +kernel, by decide +kernel⟩
  rw [BitVec.getLsbD_ushiftRight]
  exact BitVec.getLsbD_of_ge _ _ (by omega)

/-- Settles O33: after `INIT` and after a construction the accumulator is fresh, and `INIT` leaves a fresh one. -/
theorem initCommand : Obligations.InitCommand := by
  unfold Obligations.InitCommand
  refine ⟨fun w => (decode_of_length rfl rfl).trans rfl, refusesOtherLengths_opcodeByte .init,
    refusedUnconfigured_of_not_construction rfl, fun s hc => exec_init_of_configured hc,
    fun s t t' h h' => arch_of_exec_init (fresh_of_exec_init h) h',
    fun s t t' i hi h hr h' => ?_, by decide +kernel⟩
  obtain ⟨mode, poly, init, xorout, residue, -, rfl⟩ := exec_construction_acked hi h hr
  exact arch_of_exec_init (fun _ => constructed_fresh mode poly init xorout residue) h'

/-- Settles O34: the invariant gives the entry read, and the fold step is that of the direction of `REFIN`. -/
theorem updateCommand : Obligations.UpdateCommand := by
  unfold Obligations.UpdateCommand
  refine ⟨fun w b => (decode_of_length rfl rfl).trans rfl, refusesOtherLengths_opcodeByte .update,
    fun b => refusedUnconfigured_of_not_construction rfl, fun s b hinv hc => ?_,
    fun w refin poly => foldByte_zero refin poly, by decide +kernel⟩
  rw [exec_update_of_inv hinv hc, foldByte_tableEntry (eight_le_bits s.width)]
  rfl

/-- Settles O36: `RDSUMB` serialises the checksum in the order that `MODE` holds. -/
theorem rdsumbCommand : Obligations.RdsumbCommand := by
  unfold Obligations.RdsumbCommand
  refine ⟨fun w => (decode_of_length rfl rfl).trans rfl, refusesOtherLengths_opcodeByte .rdsumb,
    refusedUnconfigured_of_not_construction rfl, fun s order hc ho => ?_, fun e => ?_⟩
  · refine ⟨eq_iff_of_modeOrder ho .big, eq_iff_of_modeOrder ho .little, eq_iff_of_modeOrder ho .native,
      exec_rdsumb_of_modeOrder hc ho, fun v => ⟨length_toEndianBytes _ v order, ?_⟩⟩
    rintro rfl
    rfl
  · exact ⟨rfl, rfl⟩

/-- Settles O37: `VERIFY` compares the register without XOR-out; from zero parameters the register and the derived
residue stay 0. -/
theorem verifyCommand : Obligations.VerifyCommand := by
  unfold Obligations.VerifyCommand
  refine ⟨fun w => (decode_of_length rfl rfl).trans rfl, refusesOtherLengths_opcodeByte .verify,
    refusedUnconfigured_of_not_construction rfl, fun s hc => exec_verify_eq_residue hc,
    fun s t hc h => ?_, fun w n order poly refin refout => ?_, by decide +kernel,
    fun e => (deriveResidue_isoHdlc e).symm⟩
  · obtain rfl := Host.Outcome.next.inj ((exec_init_of_configured hc).symm.trans h)
    exact ⟨_, exec_verify_of_configured hc, verifies_iff _⟩
  · exact (reflectConditionally_initializeRegister_zero refin refout).trans
      (deriveResidue_zero n order poly refin refout).symm

/-- Settles O50: by induction over the block. -/
theorem updatemFoldsTheBlock : Obligations.UpdatemFoldsTheBlock := by
  unfold Obligations.UpdatemFoldsTheBlock
  exact ⟨fun s m hinv hc => execAll_map_update hinv hc m, fun s => rfl, fun m => rfl, fun a b => List.map_append⟩

/-- Settles O53: `INIT` and the `UPDATE`s leave the fold of the message in `REG`, which the last command reads. -/
theorem checksumbAndVerifymOperations : Obligations.ChecksumbAndVerifymOperations := by
  unfold Obligations.ChecksumbAndVerifymOperations
  refine ⟨fun s m order hinv hc ho => ⟨s.folded m, rfl, ?_, ?_⟩, fun m => ⟨rfl, rfl⟩⟩
  · refine execAll_init_map_update_concat hinv hc m ?_
    rintro t rfl
    exact exec_rdsumb_of_modeOrder hc ho
  · refine execAll_init_map_update_concat hinv hc m ?_
    rintro t rfl
    exact exec_verify_eq_residue hc

/-- Settles O52: along every sequence `REG` holds the fold of the bytes that count, which the finalise commands read. -/
theorem sequencingIsFree : Obligations.SequencingIsFree := by
  unfold Obligations.SequencingIsFree
  refine ⟨fun s l order hinv hc hfresh ho hl => ?_, fun s t i ⟨hwf, _⟩ hi h hr => ?_⟩
  · obtain ⟨out, hlen, hout, hexec⟩ := execAll_folded hinv hc (m := []) hfresh hl
    refine ⟨s.folded (bytesSince l []), out, rfl, hlen, hout, hexec, ?_⟩
    rintro t rfl
    exact ⟨exec_rdsum_of_configured hc, exec_rdsumb_of_modeOrder hc ho, exec_verify_eq_residue hc⟩
  · obtain ⟨mode, poly, init, xorout, residue, hm, rfl⟩ := exec_construction_acked hi h hr
    exact ⟨inv_installEngine hwf hm, rfl, constructed_fresh mode poly init xorout residue⟩

end Sys2Proof.Machine
end

section
/-! SUPPORT. The answers of a command told apart by their bytes, and the steps on a string that is refused
(60_exceptions.md R181, R182, R186). -/

namespace Sys2Proof.Machine

variable {s t : State} {i : Instr}

/-! ### An `ERR` response comes from an error -/

/-- A response's first byte is `0x80` or more for an `ERR` alone (30_encoding.md R70). -/
theorem encodeResponse_ne_err {W : Nat} {r : Response W} (hr : ∀ cause, r ≠ .err cause) (cause : ErrorCause) :
    encodeResponse r ≠ [BitVec.ofNat 8 (0x80 + errorCode cause)] := by
  cases r with
  | err cause' => exact absurd rfl (hr cause')
  | ack | val | bytes | bool => cases cause <;> simp [encodeResponse, errorCode]

/-- A command that answers next raises an error, which is all it does, or sends a response that is no `ERR`. -/
theorem exec_next_error_or_response (h : exec i s = .next t) :
    (∃ cause, t = raiseError cause s) ∨
    ∃ r : Response s.width.bits, (∀ cause, r ≠ .err cause) ∧ t.responses = s.responses ++ [encodeResponse r] := by
  cases i with
  | config | configu =>
    rcases exec_next_of_construction rfl h with ⟨mode, poly, init, xorout, residue, -, rfl⟩ | rfl | rfl
    exacts [.inr ⟨.ack, nofun, rfl⟩, .inl ⟨_, rfl⟩, .inl ⟨_, rfl⟩]
  | init =>
    rcases execInit_next h with ⟨-, rfl⟩ | ⟨-, rfl⟩
    exacts [.inl ⟨_, rfl⟩, .inr ⟨.ack, nofun, rfl⟩]
  | update =>
    rcases execUpdate_next h with ⟨-, rfl⟩ | ⟨-, v, -, rfl⟩
    exacts [.inl ⟨_, rfl⟩, .inr ⟨.ack, nofun, rfl⟩]
  | rdsum =>
    rcases execRdsum_next h with ⟨-, rfl⟩ | ⟨-, rfl⟩
    exacts [.inl ⟨_, rfl⟩, .inr ⟨.val _, nofun, rfl⟩]
  | rdsumb =>
    rcases execRdsumb_next h with ⟨-, rfl⟩ | ⟨-, order, -, rfl⟩
    exacts [.inl ⟨_, rfl⟩, .inr ⟨.bytes _, nofun, rfl⟩]
  | verify =>
    rcases execVerify_next h with ⟨-, rfl⟩ | ⟨-, rfl⟩
    exacts [.inl ⟨_, rfl⟩, .inr ⟨.bool _, nofun, rfl⟩]
  | rdtable =>
    rcases execRdtable_next h with ⟨-, rfl⟩ | ⟨-, v, -, rfl⟩
    exacts [.inl ⟨_, rfl⟩, .inr ⟨.val _, nofun, rfl⟩]
  | rdres =>
    rcases execRdres_next h with ⟨-, rfl⟩ | ⟨-, rfl⟩
    exacts [.inl ⟨_, rfl⟩, .inr ⟨.val _, nofun, rfl⟩]

theorem exec_eq_raiseError_of_err {cause : ErrorCause} (h : exec i s = .next t)
    (hr : t.responses = s.responses ++ [[BitVec.ofNat 8 (0x80 + errorCode cause)]]) :
    ∃ cause', t = raiseError cause' s := by
  refine (exec_next_error_or_response h).resolve_right ?_
  rintro ⟨r, hne, hres⟩
  have hbytes := List.append_cancel_left (hres.symm.trans hr)
  exact encodeResponse_ne_err hne cause (List.singleton_inj.1 hbytes)

/-- A presented command whose response is an `ERR` does nothing but send it (60_exceptions.md R182). -/
theorem step_present_eq_raiseError_of_err {c : List Byte} {cause : ErrorCause} (h : step (present c s) = .next t)
    (hr : t.responses = s.responses ++ [[BitVec.ofNat 8 (0x80 + errorCode cause)]]) :
    ∃ cause', t = raiseError cause' s := by
  cases hd : decode s.width c with
  | ok i => exact exec_eq_raiseError_of_err ((step_present_of_ok hd).symm.trans h) hr
  | error cause' => exact ⟨cause', (Host.Outcome.next.inj ((step_present_of_error hd).symm.trans h)).symm⟩

theorem raiseError_arch (cause : ErrorCause) (s : State) : (raiseError cause s).arch = s.arch := rfl

/-- No construction command answers `ERR(NOT_CONFIGURED)` (60_exceptions.md R184). -/
theorem exec_construction_ne_notConfigured (hi : isConstruction i = true) (h : exec i s = .next t) :
    t ≠ s.answer [0x84] := by
  intro ht
  have hres : t.responses = s.responses ++ [[0x84]] := congrArg State.responses ht
  rcases exec_next_of_construction hi h with ⟨mode, poly, init, xorout, residue, -, rfl⟩ | rfl | rfl
  · simp at hres
  · simp [errorCode] at hres
  · simp [errorCode] at hres

/-! ### The tests in their order -/

section Tests

variable {w : Width} {b : Byte} {bs : List Byte} {op : Opcode}

theorem decode_of_illegalOpcode (h : opcodeOfByte b = none) : decode w (b :: bs) = .error .illegalOpcode := by
  simp only [decode, h]

theorem decode_of_reserved (hop : opcodeOfByte b = some op) (hlen : (b :: bs).length = opcodeLength w.bits op)
    (hc : op = .config ∨ op = .configu) (hm : modeLegal ((b :: bs).getD 1 0) = false) :
    decode w (b :: bs) = .error .reservedField := by
  have hmode : ¬ modeLegal (cmdByte (b :: bs) 1) = true := Bool.eq_false_iff.1 hm
  rw [decode_of_length hop hlen]
  rcases hc with rfl | rfl
  · exact if_neg hmode
  · exact if_neg hmode

/-- The operands of the other seven commands are accepted whatever they are. -/
theorem decodeOperands_of_not_construction (hconfig : op ≠ .config) (hconfigu : op ≠ .configu) (w : Width)
    (c : List Byte) : ∃ i, isConstruction i = false ∧ decodeOperands w op c = .ok i := by
  cases op with
  | config => exact absurd rfl hconfig
  | configu => exact absurd rfl hconfigu
  | init | update | rdsum | rdsumb | verify | rdtable | rdres => exact ⟨_, rfl, rfl⟩

variable {rest : List HostInput}

theorem step_of_decode_error {c : List Byte} {cause : ErrorCause} (hin : s.inputs = .command c :: rest)
    (hd : decode s.width c = .error cause) : step s = .next (raiseError cause { s with inputs := rest }) := by
  rw [eq_present_of_inputs hin]
  exact step_present_of_error (s := { s with inputs := rest }) hd

/-- The last test is the only one that reads state (30_encoding.md R69). -/
theorem step_of_unconfigured (hin : s.inputs = .command (b :: bs) :: rest) (hop : opcodeOfByte b = some op)
    (hlen : (b :: bs).length = opcodeLength s.width.bits op) (hconfig : op ≠ .config) (hconfigu : op ≠ .configu)
    (hs : s.configured = false) : step s = .next (State.answer { s with inputs := rest } [0x84]) := by
  obtain ⟨i, hi, hdec⟩ := decodeOperands_of_not_construction hconfig hconfigu s.width (b :: bs)
  rw [eq_present_of_inputs hin]
  exact (step_present_of_ok (s := { s with inputs := rest }) ((decode_of_length hop hlen).trans hdec)).trans
    (refusedUnconfigured_of_not_construction hi _ hs)

end Tests

end Sys2Proof.Machine
end

section
/-! CERTIFICATES. The statements of 60_exceptions.md. -/

namespace Sys2Proof.Machine

/-- Settles O12: an `ERR` comes from an error, which leaves the architectural state, and the next answer is a function of
that state. -/
theorem errorsHaveNoEffect : Obligations.ErrorsHaveNoEffect := by
  unfold Obligations.ErrorsHaveNoEffect
  intro s t c rest cause hin h hr
  rw [eq_present_of_inputs hin] at h
  obtain ⟨cause', rfl⟩ := step_present_eq_raiseError_of_err h hr
  have harch := raiseError_arch cause' { s with inputs := rest }
  refine ⟨rfl, fun c' => ⟨fun u' hu => ?_, fun t' ht => ?_⟩⟩
  · obtain ⟨t', r, ht, heq, hur, htr⟩ := responseIsAFunctionOfTheState _ _ _ c' harch.symm hu
    exact ⟨t', r, ht, heq.symm, htr, hur⟩
  · exact responseIsAFunctionOfTheState _ _ _ c' harch ht

/-- Settles O13: the decoder makes the first four tests in their order, and the configured test comes after it. -/
theorem firstFailingTestDecidesTheError : Obligations.FirstFailingTestDecidesTheError := by
  unfold Obligations.FirstFailingTestDecidesTheError
  intro s c rest hin
  refine ⟨?_, ?_, ?_, ?_, ?_, ?_, ?_, ?_⟩
  · rintro rfl
    exact step_of_decode_error hin rfl
  · rintro b bs rfl hop
    exact step_of_decode_error hin (decode_of_illegalOpcode hop)
  · rintro b bs op rfl hop hlen
    obtain rfl := opcodeByte_of_opcodeOfByte hop
    exact refusesOtherLengths_opcodeByte op s bs rest hin hlen
  · rintro b bs op rfl hop hlen hc hm
    exact step_of_decode_error hin (decode_of_reserved hop hlen hc hm)
  · rintro b bs op rfl hop hlen hconfig hconfigu hs
    exact step_of_unconfigured hin hop hlen hconfig hconfigu hs
  · rintro rfl
    exact step_of_decode_error hin (decode_of_illegalOpcode rfl)
  · rintro rfl -
    exact refusesOtherLengths_opcodeByte .update s [] rest hin (show 1 ≠ 2 by decide)
  · rintro bs rfl hlen
    exact refusesOtherLengths_opcodeByte .config s (0xFF :: bs) rest hin hlen

/-- Settles O15: the configured test gates the seven other commands, reset clears the flag, and a construction is refused
for other causes only. -/
theorem unconfiguredCommandsAreRefused : Obligations.UnconfiguredCommandsAreRefused :=
  ⟨fun _ hi => refusedUnconfigured_of_not_construction hi, takeReset_configured, resetOf_configured _ _,
    fun _ _ _ hi h => exec_construction_ne_notConfigured hi h⟩

end Sys2Proof.Machine
end

section
/-! SUPPORT. Decoding and encoding undo each other, and a response is read back from its bytes (30_encoding.md R60 to
R71). -/

namespace Sys2Proof.Machine

variable {w : Width}

/-- What the decoder's first three tests leave: an opcode and a string of its length. -/
theorem exists_decodeOperands_of_decode {c : List Byte} {i : Instr} (h : decode w c = .ok i) :
    ∃ op bs, c = opcodeByte op :: bs ∧ c.length = opcodeLength w.bits op ∧ decodeOperands w op c = .ok i := by
  unfold decode at h
  split at h
  · cases h
  · split at h
    · cases h
    · rename_i op hop
      split at h
      · exact ⟨op, _, by rw [opcodeByte_of_opcodeOfByte hop], ‹_›, h⟩
      · cases h

theorem cmdByte_one (opcode mode : Byte) (rest : List Byte) : cmdByte (opcode :: mode :: rest) 1 = mode := rfl

theorem modeLegal_of_decodeOperands {op : Opcode} {c : List Byte} {i : Instr} (hop : op = .config ∨ op = .configu)
    (h : decodeOperands w op c = .ok i) : modeLegal (cmdByte c 1) = true := by
  rcases hop with rfl | rfl
  · by_contra hm
    simp [decodeOperands, hm] at h
  · by_contra hm
    simp [decodeOperands, hm] at h

theorem exists_append_of_length_eq_add {l : List Byte} {m n : Nat} (h : l.length = m + n) :
    ∃ p q, l = p ++ q ∧ p.length = m ∧ q.length = n :=
  ⟨l.take m, l.drop m, (List.take_append_drop m l).symm, by simp [h], by simp [h]⟩

/-- The operand bytes of a `CONFIG`, taken apart into its three operands (30_encoding.md R65). -/
theorem exists_three_operands {l : List Byte} {n : Nat} (h : l.length = 3 * n) :
    ∃ p q r, l = p ++ q ++ r ∧ p.length = n ∧ q.length = n ∧ r.length = n := by
  obtain ⟨pq, r, rfl, hpq, hr⟩ := exists_append_of_length_eq_add (l := l) (m := n + n) (n := n) (by omega)
  obtain ⟨p, q, rfl, hp, hq⟩ := exists_append_of_length_eq_add hpq
  exact ⟨p, q, r, rfl, hp, hq, hr⟩

theorem exists_cons_of_length_eq_two_add {b : Byte} {bs : List Byte} {n : Nat} (h : (b :: bs).length = 2 + n) :
    ∃ mode rest, bs = mode :: rest ∧ rest.length = n := by
  obtain ⟨mode, rest, rfl⟩ := List.exists_cons_of_length_pos (l := bs) (by rw [List.length_cons] at h; omega)
  exact ⟨mode, rest, rfl, by simp only [List.length_cons] at h; omega⟩

/-- The assembled operands of a command string are taken apart into its bytes again. -/
theorem wordBytes_wordOfBytes_bits {o : List Byte} (ho : o.length = numBytes w.bits) :
    wordBytes (wordOfBytes w.bits o) = o := wordBytes_wordOfBytes (mul_numBytes_bits w) ho

theorem wordOfBytes_wordBytes_bits (v : Word w) : wordOfBytes w.bits (wordBytes v) = v :=
  wordOfBytes_wordBytes (mul_numBytes_bits w) v

theorem wellFormed_encode_of_decode_config {bs : List Byte} {i : Instr}
    (hlen : (0x01 :: bs : List Byte).length = opcodeLength w.bits .config)
    (hop : decodeOperands w .config (0x01 :: bs) = .ok i) : wellFormed w i = true ∧ encode i = 0x01 :: bs := by
  obtain ⟨mode, rest, rfl, hrest⟩ := exists_cons_of_length_eq_two_add hlen
  have hm := modeLegal_of_decodeOperands (.inl rfl) hop
  rw [cmdByte_one] at hm
  obtain ⟨poly, init, xorout, rfl, hp, hi, hx⟩ := exists_three_operands hrest
  rw [← decode_of_length rfl hlen, decode_config hm hp hi hx] at hop
  obtain rfl := Except.ok.inj hop
  refine ⟨by simpa [wellFormed] using hm, ?_⟩
  simp only [encode, encodeOperands, wordBytes_wordOfBytes_bits, hp, hi, hx]
  rfl

theorem wellFormed_encode_of_decode_configu {bs : List Byte} {i : Instr}
    (hlen : (0x02 :: bs : List Byte).length = opcodeLength w.bits .configu)
    (hop : decodeOperands w .configu (0x02 :: bs) = .ok i) : wellFormed w i = true ∧ encode i = 0x02 :: bs := by
  obtain ⟨mode, rest, rfl, hrest⟩ := exists_cons_of_length_eq_two_add hlen
  have hm := modeLegal_of_decodeOperands (.inr rfl) hop
  rw [cmdByte_one] at hm
  obtain ⟨front, residue, rfl, hfront, hr⟩ :=
    exists_append_of_length_eq_add (l := rest) (m := 3 * numBytes w.bits) (n := numBytes w.bits) (by omega)
  obtain ⟨poly, init, xorout, rfl, hp, hi, hx⟩ := exists_three_operands hfront
  rw [← decode_of_length rfl hlen, decode_configu hm hp hi hx hr] at hop
  obtain rfl := Except.ok.inj hop
  refine ⟨by simpa [wellFormed] using hm, ?_⟩
  simp only [encode, encodeOperands, wordBytes_wordOfBytes_bits, hp, hi, hx, hr]
  rfl

/-- Reading a response back from its bytes: the first byte names its kind (30_encoding.md R70). -/
def responseOfBytes (W : Nat) : List Byte → Option (Response W)
  | [] => none
  | k :: s =>
    match k.toNat with
    | 0x00 => some .ack
    | 0x01 => some (.val (wordOfBytes W s))
    | 0x02 => some (.bytes s)
    | 0x03 => some (.bool (s == [0x01]))
    | 0x81 => some (.err .illegalOpcode)
    | 0x82 => some (.err .badLength)
    | 0x83 => some (.err .reservedField)
    | 0x84 => some (.err .notConfigured)
    | _ => none

theorem responseOfBytes_encodeResponse (r : Response w.bits) :
    responseOfBytes w.bits (encodeResponse r) = some r := by
  cases r with
  | ack => rfl
  | val v => exact congrArg (fun v => some (Response.val v)) (wordOfBytes_wordBytes_bits v)
  | bytes s => rfl
  | bool b => cases b <;> rfl
  | err cause => cases cause <;> rfl

theorem opcodeOfByte_eq_some_iff (b : Byte) (op : Opcode) : opcodeOfByte b = some op ↔ b = opcodeByte op := by
  refine ⟨opcodeByte_of_opcodeOfByte, ?_⟩
  rintro rfl
  exact opcodeOfByte_opcodeByte op

theorem exists_opcodeByte_iff (b : Byte) :
    (∃ op, b = opcodeByte op) ↔ b ∈ ([0x01, 0x02, 0x10, 0x11, 0x20, 0x21, 0x22, 0x30, 0x31] : List Byte) := by
  constructor
  · rintro ⟨op, rfl⟩
    cases op <;> decide
  · intro h
    have hbytes : ([0x01, 0x02, 0x10, 0x11, 0x20, 0x21, 0x22, 0x30, 0x31] : List Byte) =
        [Opcode.config, .configu, .init, .update, .rdsum, .rdsumb, .verify, .rdtable, .rdres].map opcodeByte := rfl
    rw [hbytes, List.mem_map] at h
    obtain ⟨op, -, rfl⟩ := h
    exact ⟨op, rfl⟩

theorem opcodeOfByte_eq_none_iff (b : Byte) :
    opcodeOfByte b = none ↔ b ∉ ([0x01, 0x02, 0x10, 0x11, 0x20, 0x21, 0x22, 0x30, 0x31] : List Byte) := by
  simp only [← exists_opcodeByte_iff, ← opcodeOfByte_eq_some_iff, Option.eq_none_iff_forall_ne_some, not_exists]

end Sys2Proof.Machine
end

section
/-! CERTIFICATES. The round trip of commands and of responses through their bytes (30_encoding.md). -/

namespace Sys2Proof.Machine

/-- Settles O1: the operands stand at their places in the string, and assembling a word's bytes gives the word. -/
theorem encodeThenDecodeGivesTheCommand : Obligations.EncodeThenDecodeGivesTheCommand := by
  unfold Obligations.EncodeThenDecodeGivesTheCommand
  intro w i hwf
  cases i with
  | config w' mode poly init xorout =>
    obtain ⟨rfl, hm⟩ : w' = w ∧ modeLegal mode = true := by simpa [wellFormed] using hwf
    have hdecode := decode_config (w := w') hm (length_wordBytes poly) (length_wordBytes init) (length_wordBytes xorout)
    simp only [wordOfBytes_wordBytes_bits] at hdecode
    exact hdecode
  | configu w' mode poly init xorout residue =>
    obtain ⟨rfl, hm⟩ : w' = w ∧ modeLegal mode = true := by simpa [wellFormed] using hwf
    have hdecode := decode_configu (w := w') hm (length_wordBytes poly) (length_wordBytes init)
      (length_wordBytes xorout) (length_wordBytes residue)
    simp only [wordOfBytes_wordBytes_bits] at hdecode
    exact hdecode
  | init | update | rdsum | rdsumb | verify | rdtable | rdres => exact (decode_of_length rfl rfl).trans rfl

/-- Settles O2: an accepted string has the length of its opcode, so that its operands are all there is of it. -/
theorem decodedStringsAreEncodings : Obligations.DecodedStringsAreEncodings := by
  unfold Obligations.DecodedStringsAreEncodings
  intro w c i h
  obtain ⟨op, bs, rfl, hlen, hop⟩ := exists_decodeOperands_of_decode h
  cases op with
  | config => exact wellFormed_encode_of_decode_config hlen hop
  | configu => exact wellFormed_encode_of_decode_configu hlen hop
  | init | rdsum | rdsumb | verify | rdres =>
    obtain rfl := List.length_eq_zero_iff.1 (Nat.succ.inj hlen)
    cases hop
    exact ⟨rfl, rfl⟩
  | update | rdtable =>
    obtain ⟨b, rfl⟩ := List.length_eq_one_iff.1 (Nat.succ.inj hlen)
    cases hop
    exact ⟨rfl, rfl⟩

/-- Settles O6: a response can be read back from its bytes. -/
theorem responseBytesDetermineTheResponse : Obligations.ResponseBytesDetermineTheResponse := by
  unfold Obligations.ResponseBytesDetermineTheResponse
  intro w a b h
  have hread := congrArg (responseOfBytes w.bits) h
  rwa [responseOfBytes_encodeResponse, responseOfBytes_encodeResponse, Option.some_inj] at hread

/-- Settles O3: the kernel decodes each string. -/
theorem writtenOutCommandsDecode : Obligations.WrittenOutCommandsDecode := by
  unfold Obligations.WrittenOutCommandsDecode
  decide +kernel

/-- Settles O4: `opcodeOfByte` answers an opcode on that opcode's byte alone. -/
theorem opcodeMapAndLengths : Obligations.OpcodeMapAndLengths := by
  unfold Obligations.OpcodeMapAndLengths
  exact ⟨opcodeOfByte_eq_some_iff, opcodeOfByte_eq_none_iff, by decide, by decide,
    fun w => ⟨rfl, rfl, rfl, rfl, rfl, rfl, rfl⟩⟩

end Sys2Proof.Machine
end

section
/-! SUPPORT. What every command keeps, that every command of a state of the invariant answers, and the step on each host
input (10_state.md R20, R26, R28; 60_exceptions.md R182, R193; 70_reset_and_hazards.md R200). -/

namespace Sys2Proof.Machine

variable {s t : State} {i : Instr}

/-! ### Every command -/

/-- No command writes `W` or `NATIVE_ORDER`, what the host presents or the number of resets. -/
theorem exec_next_frame (h : exec i s = .next t) :
    t.width = s.width ∧ t.nativeOrder = s.nativeOrder ∧ t.inputs = s.inputs ∧ t.resets = s.resets := by
  cases hi : isConstruction i with
  | false =>
    obtain ⟨v, r, rfl⟩ := exec_next_of_not_construction hi h
    exact ⟨rfl, rfl, rfl, rfl⟩
  | true =>
    rcases exec_next_of_construction hi h with ⟨mode, poly, init, xorout, residue, -, rfl⟩ | rfl | rfl
    exacts [⟨rfl, rfl, rfl, rfl⟩, ⟨rfl, rfl, rfl, rfl⟩, ⟨rfl, rfl, rfl, rfl⟩]

/-- The invariant reads `REG` and the responses not at all, and a construction establishes it anew. -/
theorem exec_keeps_inv (hinv : s.Inv) (h : exec i s = .next t) : t.Inv := by
  cases hi : isConstruction i with
  | false =>
    obtain ⟨v, r, rfl⟩ := exec_next_of_not_construction hi h
    exact inv_respond.2 (inv_withReg.2 hinv)
  | true =>
    rcases exec_next_of_construction hi h with ⟨mode, poly, init, xorout, residue, hm, rfl⟩ | rfl | rfl
    · obtain ⟨hwf, -⟩ := hinv
      exact inv_respond.2 (inv_installEngine hwf hm)
    · exact inv_respond.2 hinv
    · exact inv_respond.2 hinv

theorem construct_completes {w : Width} (mode : Byte) (poly init xorout : Word w) (residue : ModeFields → Word w)
    (s : State) : ∃ t, construct w mode poly init xorout residue s = .next t := by
  unfold construct
  split
  · split
    · exact ⟨_, rfl⟩
    · exact ⟨_, rfl⟩
  · exact ⟨_, rfl⟩

/-- A configured state of the invariant has every entry a command can read and an order to serialise in. -/
theorem exec_completes_of_configured (hinv : s.Inv) (hc : s.configured = true) (i : Instr) :
    ∃ t, exec i s = .next t := by
  have hreads (hi : onlyReads i = true) : ∃ t, exec i s = .next t := by
    obtain ⟨r, -, h⟩ := exec_of_onlyReads hi hinv hc
    exact ⟨_, h⟩
  cases i with
  | config | configu => exact construct_completes _ _ _ _ _ s
  | init => exact ⟨_, exec_init_of_configured hc⟩
  | update b => exact ⟨_, exec_update_of_inv hinv hc b⟩
  | rdsum | rdsumb | verify | rdtable | rdres => exact hreads rfl

theorem exec_completes_of_unconfigured (hc : s.configured = false) (i : Instr) : ∃ t, exec i s = .next t := by
  cases hi : isConstruction i with
  | false => exact ⟨_, refusedUnconfigured_of_not_construction hi s hc⟩
  | true =>
    obtain ⟨w, mode, poly, init, xorout, residue, hexec⟩ := exec_eq_construct hi
    rw [hexec]
    exact construct_completes _ _ _ _ _ s

theorem exec_completes (hinv : s.Inv) (i : Instr) : ∃ t, exec i s = .next t := by
  cases hc : s.configured with
  | false => exact exec_completes_of_unconfigured hc i
  | true => exact exec_completes_of_configured hinv hc i

/-! ### The step on each host input -/

variable {c : List Byte} {rest : List HostInput}

theorem step_of_no_input (hin : s.inputs = []) : step s = .next s := by
  simp only [step, takeInput, hin]

theorem step_of_reset (hin : s.inputs = .reset :: rest) : step s = .next (takeReset { s with inputs := rest }) := by
  simp only [step, takeInput, hin]

theorem step_of_decode_ok (hin : s.inputs = .command c :: rest) (hd : decode s.width c = .ok i) :
    step s = exec i { s with inputs := rest } := by
  rw [eq_present_of_inputs hin]
  exact step_present_of_ok (s := { s with inputs := rest }) hd

theorem step_completes (hinv : s.Inv) : ∃ t, step s = .next t := by
  cases hin : s.inputs with
  | nil => exact ⟨s, step_of_no_input hin⟩
  | cons x rest =>
    cases x with
    | reset => exact ⟨_, step_of_reset hin⟩
    | command c =>
      cases hd : decode s.width c with
      | error cause => exact ⟨_, step_of_decode_error hin hd⟩
      | ok i =>
        rw [step_of_decode_ok hin hd]
        exact exec_completes (s := { s with inputs := rest }) (inv_inputs.2 hinv) i

/-- The reset event and every command keep the invariant; so does a string that is no command. -/
theorem step_keeps_inv (hinv : s.Inv) (h : step s = .next t) : t.Inv := by
  rcases step_cases h with ⟨-, rfl⟩ | ⟨rest, -, rfl⟩ | ⟨c, rest, i, -, -, hexec⟩ | ⟨c, rest, cause, -, -, rfl⟩
  · exact hinv
  · exact inv_takeReset
  · exact exec_keeps_inv (s := { s with inputs := rest }) (inv_inputs.2 hinv) hexec
  · exact inv_respond.2 (inv_inputs.2 hinv)

theorem step_keeps_parameters (h : step s = .next t) : t.width = s.width ∧ t.nativeOrder = s.nativeOrder := by
  rcases step_cases h with ⟨-, rfl⟩ | ⟨rest, -, rfl⟩ | ⟨c, rest, i, -, -, hexec⟩ | ⟨c, rest, cause, -, -, rfl⟩
  · exact ⟨rfl, rfl⟩
  · exact ⟨rfl, rfl⟩
  · obtain ⟨hwidth, hnative, -, -⟩ := exec_next_frame hexec
    exact ⟨hwidth, hnative⟩
  · exact ⟨rfl, rfl⟩

theorem resetOf_inv (w : Width) (e : ByteEnd) : (State.resetOf w e).Inv := ⟨rfl, nofun⟩

/-! ### Responses compared by their payload -/

theorem answer_injective (s : State) : Function.Injective s.answer := fun _ _ h =>
  List.singleton_inj.1 (List.append_cancel_left (congrArg State.responses h))

end Sys2Proof.Machine
end

section
/-! CERTIFICATES. The statements about every step: the invariant, completion, one response for each command, reset
(60_exceptions.md; 70_reset_and_hazards.md). -/

namespace Sys2Proof.Machine

/-- Settles O19: `REG` and the responses do not enter the invariant, a construction establishes it, and after a reset
there is nothing to show. -/
theorem stepKeepsInv : Obligations.StepKeepsInv := fun _ _ => step_keeps_inv

/-- Settles O10: in a configured state of the invariant every read finds its entry and the order is not the reserved one;
otherwise the command is refused. -/
theorem everyStepCompletes : Obligations.EveryStepCompletes := fun _ => step_completes

/-- Settles O11: of a command that decodes by what every command keeps, of another string by the error it raises. -/
theorem everyCommandSendsOneResponse : Obligations.EveryCommandSendsOneResponse := by
  unfold Obligations.EveryCommandSendsOneResponse
  intro s t c rest hin h
  cases hd : decode s.width c with
  | ok i =>
    rw [step_of_decode_ok hin hd] at h
    obtain ⟨-, -, hinputs, hresets⟩ := exec_next_frame h
    exact ⟨hinputs, hresets, exec_next_responses (s := { s with inputs := rest }) h⟩
  | error cause =>
    obtain rfl := Host.Outcome.next.inj ((step_of_decode_error hin hd).symm.trans h)
    exact ⟨rfl, rfl, .err cause, rfl⟩

/-- Settles O20: by the cases of a step. -/
theorem stepKeepsTheInstanceParameters : Obligations.StepKeepsTheInstanceParameters := fun _ _ => step_keeps_parameters

/-- Settles O7: the string is taken from the inputs, and its command executed. -/
theorem stepRunsTheDecodedCommand : Obligations.StepRunsTheDecodedCommand := fun _ _ _ _ => step_of_decode_ok

/-- Settles O8: the string is taken from the inputs, and the error raised. -/
theorem stepAnswersAStringThatIsNoCommand : Obligations.StepAnswersAStringThatIsNoCommand :=
  fun _ _ _ _ => step_of_decode_error

/-- Settles O9: with nothing to take the step holds the state. -/
theorem idleStepChangesNothing : Obligations.IdleStepChangesNothing := fun _ => step_of_no_input

/-- Settles O16: the reset state is written with these values. -/
theorem resetState : Obligations.ResetState :=
  fun w e => ⟨resetOf_width w e, resetOf_nativeOrder w e, resetOf_configured w e, Memory.read_nil, resetOf_inputs w e,
    resetOf_responses w e⟩

/-- Settles O17: the step takes the event, which leaves the engine unspecified. -/
theorem resetEvent : Obligations.ResetEvent :=
  fun _ _ hin => ⟨_, step_of_reset hin, rfl, rfl, rfl, Memory.read_nil, rfl, rfl, rfl⟩

/-- Settles O18: an empty table is canonical, and the flag is 0. -/
theorem invHoldsAtReset : Obligations.InvHoldsAtReset := ⟨resetOf_inv _ _, resetOf_inv⟩

end Sys2Proof.Machine
end

section
/-! CERTIFICATES. The frames of the commands (10_state.md R36), and the two statements of tier 1 about single commands
(41_table_generator.md R123; 42_accumulator.md R150). -/

namespace Sys2Proof.Machine

/-- Settles O26: a command that only reads is a response. -/
theorem readingCommandsChangeNoState : Obligations.ReadingCommandsChangeNoState := by
  unfold Obligations.ReadingCommandsChangeNoState
  intro s t i hi h
  obtain ⟨r, rfl⟩ := exec_next_of_onlyReads hi h
  exact ⟨rfl, fun _ => rfl, rfl, rfl, encodeResponse r, rfl⟩

/-- Settles O27: neither is a construction, and what is no construction writes `REG` at most. -/
theorem accumulatorCommandsChangeOnlyReg : Obligations.AccumulatorCommandsChangeOnlyReg := by
  unfold Obligations.AccumulatorCommandsChangeOnlyReg
  intro s t i hi h
  have hconstruction : isConstruction i = false := by
    rcases hi with rfl | ⟨b, rfl⟩
    exacts [rfl, rfl]
  obtain ⟨v, r, rfl⟩ := exec_next_of_not_construction hconstruction h
  exact ⟨rfl, fun _ => rfl, rfl, rfl, v, encodeResponse r, rfl⟩

/-- Settles O28: a construction installs an engine with a filled table, or raises one of two errors. -/
theorem constructionFrame : Obligations.ConstructionFrame := by
  unfold Obligations.ConstructionFrame
  intro s t i hi h
  obtain ⟨hwidth, hnative, hinputs, hresets⟩ := exec_next_frame h
  refine ⟨hwidth, hnative, hinputs, hresets, ?_⟩
  rcases exec_next_of_construction hi h with ⟨mode, poly, init, xorout, residue, -, rfl⟩ | rfl | rfl
  · exact .inl ⟨rfl, rfl, constructed_tableMatches mode poly init xorout residue⟩
  · exact .inr ⟨.inr rfl, fun _ => rfl⟩
  · exact .inr ⟨.inl rfl, fun _ => rfl⟩

/-- Settles O31: the response of `RDRES` determines the residue, and both constructors install the same engine with
it. -/
theorem constructionEquivalence : Obligations.ConstructionEquivalence := by
  unfold Obligations.ConstructionEquivalence
  intro s t mode poly init xorout residue hm h hres
  obtain ⟨residue', rfl⟩ := exec_config_next hm h
  rw [exec_rdres_constructed] at hres
  have hbytes := answer_injective _ (Host.Outcome.next.inj hres)
  obtain rfl := wordBytes_injective (mul_numBytes_bits s.width) (List.cons.inj hbytes).2
  obtain ⟨f, hf⟩ := modeFields_of_modeLegal hm
  exact exec_configu_of_fields poly init xorout residue' hf

/-- Settles O35: `RDSUM` only responds, with the finalised register. -/
theorem rdsumCommand : Obligations.RdsumCommand := by
  unfold Obligations.RdsumCommand
  exact ⟨fun w => (decode_of_length rfl rfl).trans rfl, refusesOtherLengths_opcodeByte .rdsum,
    refusedUnconfigured_of_not_construction rfl, fun s hc => exec_rdsum_of_configured hc, by decide +kernel,
    by decide +kernel⟩

end Sys2Proof.Machine
end

section
/-! SUPPORT. Reversal and reflection over XOR and over shifts, and the inverse of the finalisation
(40_datapath_functions.md R91 to R95). -/

namespace Sys2Proof.Machine

variable {W : Nat}

theorem rev_xor (u v : BitVec W) : rev (u ^^^ v) = rev u ^^^ rev v := by
  refine BitVec.eq_of_getLsbD_eq fun i hi => ?_
  simp only [BitVec.getLsbD_xor, getLsbD_rev _ i hi]

/-- Reversal turns a right shift into a left shift. -/
theorem rev_ushiftRight (v : BitVec W) (k : Nat) : rev (v >>> k) = rev v <<< k := by
  refine BitVec.eq_of_getLsbD_eq fun i hi => ?_
  rw [getLsbD_rev _ i hi, BitVec.getLsbD_ushiftRight, BitVec.getLsbD_shiftLeft]
  by_cases hik : i < k
  · rw [BitVec.getLsbD_of_ge v _ (by omega)]
    simp [hik]
  · rw [getLsbD_rev v _ (by omega), show W - 1 - (i - k) = k + (W - 1 - i) by omega]
    simp [hi, hik]

theorem rev_shiftLeft (v : BitVec W) (k : Nat) : rev (v <<< k) = rev v >>> k := by
  rw [← rev_rev (rev v >>> k), rev_ushiftRight, rev_rev]

theorem reflectConditionally_xor (refin refout : Bool) (u v : BitVec W) :
    reflectConditionally refin refout (u ^^^ v) =
      reflectConditionally refin refout u ^^^ reflectConditionally refin refout v := by
  unfold reflectConditionally
  split
  · exact rev_xor u v
  · rfl

@[simp] theorem reflectConditionally_reflectConditionally (refin refout : Bool) (v : BitVec W) :
    reflectConditionally refin refout (reflectConditionally refin refout v) = v := by
  unfold reflectConditionally
  split
  · exact rev_rev v
  · rfl

/-- The register is recovered from its checksum (40_datapath_functions.md R95). -/
theorem reflectConditionally_finalize_xor (refin refout : Bool) (xorout r : BitVec W) :
    reflectConditionally refin refout (finalize refin refout xorout r ^^^ xorout) = r := by
  rw [finalize, BitVec.xor_assoc, BitVec.xor_self, BitVec.xor_zero, reflectConditionally_reflectConditionally]

theorem finalize_inj {refin refout : Bool} {xorout r r' : BitVec W} :
    finalize refin refout xorout r = finalize refin refout xorout r' ↔ r = r' :=
  (Function.LeftInverse.injective (g := fun v => reflectConditionally refin refout (v ^^^ xorout))
    (reflectConditionally_finalize_xor refin refout xorout)).eq_iff

/-- A state that agrees with another on everything but `REG` is that state with another `REG` and interface. -/
theorem exists_withReg_of_arch_eq {s s' : State} (h : s'.arch = { s.arch with reg := s'.arch.reg }) :
    ∃ v ins rs n, s' = { s.withReg v with inputs := ins, responses := rs, resets := n } := by
  have hwidth : s'.width = s.width := congrArg ArchView.width h
  refine ⟨s'.engine.reg.setWidth _, _, _, _, eq_of_arch_eq (Eq.trans ?_ h.symm)⟩
  have hlt : s'.engine.reg.toNat < 2 ^ s.width.bits := hwidth ▸ s'.engine.reg.isLt
  have hreg : (s'.engine.reg.setWidth s.width.bits).toNat = s'.engine.reg.toNat := by
    rw [BitVec.toNat_setWidth, Nat.mod_eq_of_lt hlt]
  exact congrArg (fun reg => { s.arch with reg := reg }) hreg

theorem wordBytes_inj {w : Width} {u v : Word w} : wordBytes u = wordBytes v ↔ u = v :=
  ⟨wordBytes_injective (mul_numBytes_bits w), congrArg wordBytes⟩

/-! ### The bytes of a serialised value -/

theorem getD_bytesFrom_big (v : BitVec W) {k : Nat} (hk : k < numBytes W) :
    (bytesFrom v .big).getD k 0 = byteAt v (numBytes W - 1 - k) := by
  simp [bytesFrom, hk]

theorem getD_bytesFrom_little (v : BitVec W) {k : Nat} (hk : k < numBytes W) :
    (bytesFrom v .little).getD k 0 = byteAt v k := by
  simp [bytesFrom, hk]

theorem one_lt_numBytes (w : Width) : 1 < numBytes w.bits := by cases w <;> decide

/-- The two ends differ on 1, whose lowest byte is 1 and whose highest is 0. -/
theorem bytesFrom_little_one_ne (w : Width) : bytesFrom (1#w.bits) .little ≠ wordBytes 1#w.bits := by
  intro h
  have hnb := one_lt_numBytes w
  have hpos : 0 < w.bits := by cases w <;> decide
  have hbyte : (bytesFrom 1#w.bits .little).getD 0 0 = (bytesFrom 1#w.bits .big).getD 0 0 := congrArg (·.getD 0 0) h
  rw [getD_bytesFrom_little _ (by omega), getD_bytesFrom_big _ (by omega)] at hbyte
  have hlow : (1#w.bits).getLsbD (8 * 0 + 0) = true := by simp [hpos]
  have hhigh : (1#w.bits).getLsbD (8 * (numBytes w.bits - 1 - 0) + 0) = false := by
    rw [BitVec.getLsbD_one, decide_eq_false (p := _ = 0) (by omega), Bool.and_false]
  have hbit := congrArg (·.getLsbD 0) hbyte
  simp only [getLsbD_byteAt _ _ 0 (by decide : 0 < 8), hlow, hhigh] at hbit
  exact absurd hbit (by decide)

end Sys2Proof.Machine
end

section
/-! SUPPORT. The generator over XOR, its two recurrences as mirror images, and its entries at single bits
(41_table_generator.md R111 to R114). -/

namespace Sys2Proof.Machine

variable {W : Nat}

/-- The polynomial enters by the bit that is shifted out. -/
theorem shiftStep_eq_xor (c rp : BitVec W) : shiftStep c rp = c >>> 1 ^^^ if c.getLsbD 0 then rp else 0#W := by
  unfold shiftStep
  split
  · rfl
  · rw [BitVec.xor_zero]

theorem ite_xor_zero (p q : Bool) (v : BitVec W) :
    (if p ^^ q then v else 0#W) = (if p then v else 0#W) ^^^ if q then v else 0#W := by
  cases p with
  | false => simp
  | true => cases q <;> simp

theorem shiftStep_xor (a b rp : BitVec W) : shiftStep (a ^^^ b) rp = shiftStep a rp ^^^ shiftStep b rp := by
  simp only [shiftStep_eq_xor, BitVec.ushiftRight_xor_distrib, BitVec.getLsbD_xor, ite_xor_zero]
  ac_rfl

theorem shiftSteps_xor (n : Nat) (a b rp : BitVec W) :
    shiftSteps n (a ^^^ b) rp = shiftSteps n a rp ^^^ shiftSteps n b rp := by
  induction n generalizing a b with
  | zero => rfl
  | succ n ih => simp only [shiftSteps_succ, shiftStep_xor, ih]

theorem tableEntry_xor (poly : BitVec W) (refin : Bool) (a b : Byte) :
    tableEntry poly refin (a ^^^ b) = tableEntry poly refin a ^^^ tableEntry poly refin b := by
  cases refin with
  | false => simp [tableEntry, rev_xor, BitVec.setWidth_xor, shiftSteps_xor]
  | true => simp [tableEntry, BitVec.setWidth_xor, shiftSteps_xor]

/-- The reflected table is the mirror of the normal one. -/
theorem tableEntry_true (poly : BitVec W) (i : Byte) :
    tableEntry poly true i = rev (tableEntry poly false (rev i)) := by
  simp [tableEntry]

/-- The MSB-first step is the mirror of the LSB-first one (41_table_generator.md R113). -/
theorem rev_shiftStep (hW : 0 < W) (poly c : BitVec W) : rev (shiftStep c (rev poly)) = msbStep poly (rev c) := by
  have htop : (rev c).getLsbD (W - 1) = c.getLsbD 0 := by
    rw [getLsbD_rev c _ (by omega), Nat.sub_self]
  unfold shiftStep msbStep
  rw [htop]
  split
  · rw [rev_xor, rev_ushiftRight, rev_rev]
  · exact rev_ushiftRight c 1

theorem rev_shiftSteps (hW : 0 < W) (poly : BitVec W) (n : Nat) (c : BitVec W) :
    rev (shiftSteps n c (rev poly)) = msbSteps poly n (rev c) := by
  induction n generalizing c with
  | zero => rfl
  | succ n ih => rw [shiftSteps_succ, ih, rev_shiftStep hW, msbSteps_succ]

/-- A byte in the low bits, seen from the other end, is the reversed byte in the top bits. -/
theorem rev_setWidth_rev (hW : 8 ≤ W) (b : Byte) : rev ((rev b).setWidth W) = topByte W b := by
  refine BitVec.eq_of_getLsbD_eq fun i hi => ?_
  rw [getLsbD_rev _ i hi, topByte, BitVec.getLsbD_setWidth, BitVec.getLsbD_shiftLeft, BitVec.getLsbD_setWidth]
  by_cases hlow : i < W - 8
  · rw [BitVec.getLsbD_of_ge (rev b) _ (by omega)]
    simp [hlow]
  · rw [getLsbD_rev b _ (by omega), show 8 - 1 - (W - 1 - i) = i - (W - 8) by omega]
    have h1 : W - 1 - i < W := by omega
    have h2 : i - (W - 8) < W := by omega
    simp [hi, hlow, h1, h2]

theorem tableEntry_false_eq_directEntry (hW : 8 ≤ W) (poly : BitVec W) (i : Byte) :
    tableEntry poly false i = directEntry poly i := by
  rw [directEntry, ← rev_setWidth_rev hW, ← rev_shiftSteps (by omega)]
  rfl

theorem shiftStep_of_bit_zero {c : BitVec W} (h : c.getLsbD 0 = false) (rp : BitVec W) : shiftStep c rp = c >>> 1 := by
  rw [shiftStep, h]
  rfl

/-- While the bits that are shifted out are 0, the polynomial does not enter. -/
theorem shiftSteps_of_low_bits_zero {n : Nat} {c : BitVec W} (h : ∀ i < n, c.getLsbD i = false) (rp : BitVec W) :
    shiftSteps n c rp = c >>> n := by
  induction n generalizing c with
  | zero => simp
  | succ n ih =>
    have hshifted : ∀ i < n, (c >>> 1).getLsbD i = false := fun i hi => by
      rw [BitVec.getLsbD_ushiftRight]
      exact h (1 + i) (by omega)
    rw [shiftSteps_succ, shiftStep_of_bit_zero (h 0 (by omega)), ih hshifted, ← BitVec.shiftRight_add, Nat.add_comm]

theorem shiftSteps_succ_last (n : Nat) (c rp : BitVec W) :
    shiftSteps (n + 1) c rp = shiftStep (shiftSteps n c rp) rp := by
  induction n generalizing c with
  | zero => rfl
  | succ n ih => rw [shiftSteps_succ, ih, ← shiftSteps_succ]

theorem shiftStep_one (hW : 1 < W) (rp : BitVec W) : shiftStep 1#W rp = rp := by
  have hzero : 1#W >>> 1 = 0#W := by
    apply BitVec.eq_of_toNat_eq
    rw [BitVec.toNat_ushiftRight, BitVec.toNat_ofNat, Nat.mod_eq_of_lt (Nat.one_lt_two_pow (by omega))]
    rfl
  have hpos : 0 < W := by omega
  have hbit : (1#W).getLsbD 0 = true := by simp [hpos]
  rw [shiftStep, if_pos hbit, hzero, BitVec.zero_xor]

/-- The only bit of byte 128 meets the polynomial in the last of the eight steps. -/
theorem tableEntry_true_128 (hW : 8 ≤ W) (poly : BitVec W) : tableEntry poly true 128 = rev poly := by
  have hlow : ∀ i < 7, ((128 : Byte).setWidth W).getLsbD i = false := fun i hi => by
    have hbit : ∀ i < 7, (128 : Byte).getLsbD i = false := by decide
    rw [BitVec.getLsbD_setWidth, hbit i hi, Bool.and_false]
  have hone : (128 : Byte).setWidth W >>> 7 = 1#W := by
    apply BitVec.eq_of_toNat_eq
    rw [BitVec.toNat_ushiftRight, BitVec.toNat_setWidth_of_le hW, BitVec.toNat_ofNat,
      Nat.mod_eq_of_lt (Nat.one_lt_two_pow (by omega))]
    rfl
  change shiftSteps 8 ((128 : Byte).setWidth W) (rev poly) = rev poly
  rw [shiftSteps_succ_last, shiftSteps_of_low_bits_zero hlow, hone, shiftStep_one (by omega)]

theorem tableEntry_false_1 (hW : 8 ≤ W) (poly : BitVec W) : tableEntry poly false 1 = poly := by
  have hmirror : (1 : Byte) = rev 128 := by decide
  rw [hmirror, ← rev_rev (tableEntry poly false (rev 128)), ← tableEntry_true, tableEntry_true_128 hW, rev_rev]

end Sys2Proof.Machine
end

section
/-! SUPPORT. The fold over XOR in the register and the byte (42_accumulator.md R142). -/

namespace Sys2Proof.Machine

variable {W : Nat}

theorem foldIndex_xor (refin : Bool) (r r' : BitVec W) (b b' : Byte) :
    foldIndex refin (r ^^^ r') (b ^^^ b') = foldIndex refin r b ^^^ foldIndex refin r' b' := by
  cases refin with
  | false =>
    simp only [foldIndex, BitVec.setWidth_xor, BitVec.ushiftRight_xor_distrib, Bool.false_eq_true, if_false]
    ac_rfl
  | true =>
    simp only [foldIndex, BitVec.setWidth_xor, if_true]
    ac_rfl

theorem foldStep_xor (refin : Bool) (r r' v v' : BitVec W) :
    foldStep refin (r ^^^ r') (v ^^^ v') = foldStep refin r v ^^^ foldStep refin r' v' := by
  cases refin with
  | false =>
    simp only [foldStep, BitVec.shiftLeft_xor_distrib, Bool.false_eq_true, if_false]
    ac_rfl
  | true =>
    simp only [foldStep, BitVec.ushiftRight_xor_distrib, if_true]
    ac_rfl

theorem foldByte_xor (refin : Bool) (poly r r' : BitVec W) (b b' : Byte) :
    foldByte refin (r ^^^ r') (b ^^^ b') (tableEntry poly refin) =
      foldByte refin r b (tableEntry poly refin) ^^^ foldByte refin r' b' (tableEntry poly refin) := by
  rw [foldByte, foldIndex_xor, tableEntry_xor, foldStep_xor, foldByte, foldByte]

/-- The byte where the fold takes it up: in the low bits when `refin`, in the top bits otherwise. -/
def placedByte (W : Nat) (refin : Bool) (b : Byte) : BitVec W := if refin then b.setWidth W else topByte W b

theorem topByte_ushiftRight (hW : 8 ≤ W) (b : Byte) : topByte W b >>> (W - 8) = b.setWidth W := by
  refine BitVec.eq_of_getLsbD_eq fun i hi => ?_
  rw [BitVec.getLsbD_ushiftRight, topByte, BitVec.getLsbD_shiftLeft, Nat.add_sub_cancel_left]
  by_cases hbyte : i < 8
  · have hlt : W - 8 + i < W := by omega
    simp [hlt]
  · rw [BitVec.getLsbD_setWidth, BitVec.getLsbD_of_ge b i (by omega)]
    simp

theorem topByte_shiftLeft_eight (hW : 8 ≤ W) (b : Byte) : topByte W b <<< 8 = 0#W := by
  rw [topByte, ← BitVec.shiftLeft_add, Nat.sub_add_cancel hW]
  exact BitVec.shiftLeft_eq_zero (Nat.le_refl W)

/-- A byte that stands in the register where the fold takes it up is cancelled by the same message byte. -/
theorem foldByte_placedByte (hW : 8 ≤ W) (refin : Bool) (poly : BitVec W) (b : Byte) :
    foldByte refin (placedByte W refin b) b (tableEntry poly refin) = 0#W := by
  cases refin with
  | false =>
    have hindex : foldIndex false (topByte W b) b = 0 := by simp [foldIndex, topByte_ushiftRight hW]
    change foldStep false (topByte W b) (tableEntry poly false (foldIndex false (topByte W b) b)) = 0#W
    rw [hindex, tableEntry_zero_index]
    simp [foldStep, topByte_shiftLeft_eight hW]
  | true =>
    have hindex : foldIndex true (b.setWidth W) b = 0 := by simp [foldIndex]
    change foldStep true (b.setWidth W) (tableEntry poly true (foldIndex true (b.setWidth W) b)) = 0#W
    rw [hindex, tableEntry_zero_index]
    simp [foldStep, setWidth_ushiftRight_eight]

/-- So the byte can be XORed into the register before a zero byte is folded (42_accumulator.md R142). -/
theorem foldByte_eq_foldByte_zero (hW : 8 ≤ W) (refin : Bool) (poly r : BitVec W) (b : Byte) :
    foldByte refin r b (tableEntry poly refin) =
      foldByte refin (r ^^^ placedByte W refin b) 0 (tableEntry poly refin) := by
  have h := foldByte_xor refin poly (r ^^^ placedByte W refin b) (placedByte W refin b) 0#8 b
  rwa [foldByte_placedByte hW, BitVec.xor_assoc, BitVec.xor_self, BitVec.xor_zero, BitVec.zero_xor, BitVec.xor_zero] at h

end Sys2Proof.Machine
end

section
/-! CERTIFICATES. The properties that the spec derives of the datapath, the generator and the fold
(40_datapath_functions.md R94 to R97; 41_table_generator.md R113, R114; 42_accumulator.md R142, R144, R152). -/

namespace Sys2Proof.Machine

/-- Settles O43: the finalisation has an inverse, and the bytes of a word determine it. -/
theorem rdsumDeterminesTheRegister : Obligations.RdsumDeterminesTheRegister := by
  unfold Obligations.RdsumDeterminesTheRegister
  refine ⟨fun s v hc h => ?_, fun s s' hc harch => ?_, fun w refin refout xorout r r' =>
    ⟨(reflectConditionally_finalize_xor refin refout xorout r).symm, finalize_inj,
      reflectConditionally_xor refin refout r r'⟩⟩
  · rw [exec_rdsum_of_configured hc] at h
    have hbytes := answer_injective s (Host.Outcome.next.inj h)
    obtain rfl := wordBytes_inj.1 (List.cons.inj hbytes).2
    exact (reflectConditionally_finalize_xor _ _ _ _).symm
  · obtain ⟨v, ins, rs, n, rfl⟩ := exists_withReg_of_arch_eq harch
    refine ⟨_, _, exec_rdsum_of_configured hc, exec_rdsum_of_configured hc, ?_⟩
    have hbytes : wordBytes s.engine.checksum = wordBytes (s.withReg v).engine.checksum ↔ s.engine.reg = v :=
      wordBytes_inj.trans finalize_inj
    exact (List.cons_inj_right _).trans (hbytes.trans BitVec.toNat_inj.symm)

/-- Settles O44: byte by byte; on the value 1 the two ends differ. -/
theorem serialisationPlacesTheBytes : Obligations.SerialisationPlacesTheBytes := by
  unfold Obligations.SerialisationPlacesTheBytes
  intro w n order
  cases he : effective n order with
  | big =>
    refine ⟨fun v => ⟨length_toEndianBytes n v order, fun k hk j hj => ?_⟩, fun _ => rfl, fun _ v => ?_⟩
    · rw [toEndianBytes, he, getD_bytesFrom_big v hk, getLsbD_byteAt v _ j hj]
      rfl
    · rw [toEndianBytes, he]
      rfl
  | little =>
    refine ⟨fun v => ⟨length_toEndianBytes n v order, fun k hk j hj => ?_⟩, fun h => ?_, nofun⟩
    · rw [toEndianBytes, he, getD_bytesFrom_little v hk, getLsbD_byteAt v _ j hj]
    · have hone := h 1#w.bits
      rw [toEndianBytes, he] at hone
      exact absurd hone (bytesFrom_little_one_ne w)

/-- Settles O45: the two recurrences are mirror images, step by step. -/
theorem tableAgreesWithTheMsbFirstForm : Obligations.TableAgreesWithTheMsbFirstForm := by
  unfold Obligations.TableAgreesWithTheMsbFirstForm
  intro w poly
  have hW := eight_le_bits w
  exact ⟨tableEntry_false_eq_directEntry hW poly, tableEntry_false_1 hW poly, tableEntry_true_128 hW poly⟩

/-- Settles O46: each step is linear, and so is every reversal. -/
theorem tableIsLinearAndMirrored : Obligations.TableIsLinearAndMirrored := by
  unfold Obligations.TableIsLinearAndMirrored
  exact fun w poly => ⟨tableEntry_xor poly, tableEntry_true poly⟩

/-- Settles O48: the index, the table and the shift are linear, and a byte folded into itself leaves 0. -/
theorem foldIsLinear : Obligations.FoldIsLinear := by
  unfold Obligations.FoldIsLinear
  intro w poly r r' b b'
  have hW := eight_le_bits w
  exact ⟨fun refin => foldByte_xor refin poly r r' b b', foldByte_eq_foldByte_zero hW true poly r b,
    foldByte_eq_foldByte_zero hW false poly r b⟩

/-- Settles O49: by induction over the first part. -/
theorem foldStreams : Obligations.FoldStreams := by
  unfold Obligations.FoldStreams
  exact fun w refin r a b T => foldBytes_append refin r a b T

end Sys2Proof.Machine
end

section
/-! SUPPORT. The fold against the bit-serial procedure: eight steps at once through the table (42_accumulator.md R145). -/

namespace Sys2Proof.Machine

variable {W : Nat}

/-- Eight steps on a register are the table entry of its low byte and the shift of the rest. -/
theorem shiftSteps_eight_eq_foldByte (hW : 8 ≤ W) (poly x : BitVec W) :
    shiftSteps 8 x (rev poly) = foldByte true x 0 (tableEntry poly true) := by
  have hindex : foldIndex true x 0 = x.setWidth 8 := by simp [foldIndex]
  have hhigh : ∀ i < 8, (x ^^^ (x.setWidth 8).setWidth W).getLsbD i = false := fun i hi => by
    have hiW : i < W := by omega
    simp [hi, hiW]
  calc shiftSteps 8 x (rev poly)
      = shiftSteps 8 ((x.setWidth 8).setWidth W ^^^ (x ^^^ (x.setWidth 8).setWidth W)) (rev poly) := by
        rw [BitVec.xor_comm x, ← BitVec.xor_assoc, BitVec.xor_self, BitVec.zero_xor]
    _ = tableEntry poly true (x.setWidth 8) ^^^ (x >>> 8) := by
        rw [shiftSteps_xor, shiftSteps_of_low_bits_zero hhigh, BitVec.ushiftRight_xor_distrib,
          setWidth_ushiftRight_eight, BitVec.xor_zero]
        rfl
    _ = foldByte true x 0 (tableEntry poly true) := by rw [foldByte, hindex]; rfl

theorem foldByte_true_eq_shiftSteps (hW : 8 ≤ W) (poly r : BitVec W) (b : Byte) :
    foldByte true r b (tableEntry poly true) = shiftSteps 8 (r ^^^ b.setWidth W) (rev poly) := by
  rw [shiftSteps_eight_eq_foldByte hW]
  exact foldByte_eq_foldByte_zero hW true poly r b

theorem foldIndex_rev (hW : 8 ≤ W) (x : BitVec W) : foldIndex true (rev x) 0 = rev (foldIndex false x 0) := by
  refine BitVec.eq_of_getLsbD_eq fun i hi => ?_
  have hmirror : 8 - 1 - i < 8 := by omega
  have hplace : W - 8 + (8 - 1 - i) = W - 1 - i := by omega
  have hlow : (foldIndex true (rev x) 0).getLsbD i = (rev x).getLsbD i := by simp [foldIndex, hi]
  have htop : (foldIndex false x 0).getLsbD (8 - 1 - i) = x.getLsbD (W - 8 + (8 - 1 - i)) := by
    simp [foldIndex, hmirror]
  rw [getLsbD_rev _ i hi, hlow, htop, hplace, getLsbD_rev x i (by omega)]

/-- The two directions of the fold are mirror images. -/
theorem rev_foldByte_false_zero (hW : 8 ≤ W) (poly x : BitVec W) :
    rev (foldByte false x 0 (tableEntry poly false)) = foldByte true (rev x) 0 (tableEntry poly true) := by
  have hentry : tableEntry poly true (foldIndex true (rev x) 0) = rev (tableEntry poly false (foldIndex false x 0)) := by
    rw [foldIndex_rev hW, tableEntry_true, rev_rev]
  rw [foldByte, foldByte, hentry]
  change rev (_ ^^^ x <<< 8) = _ ^^^ rev x >>> 8
  rw [rev_xor, rev_shiftLeft]

theorem foldByte_false_eq_msbSteps (hW : 8 ≤ W) (poly r : BitVec W) (b : Byte) :
    foldByte false r b (tableEntry poly false) = msbSteps poly 8 (r ^^^ topByte W b) := by
  have hzero := foldByte_eq_foldByte_zero hW false poly r b
  rw [hzero, ← rev_rev (foldByte false _ 0 _), rev_foldByte_false_zero hW, ← shiftSteps_eight_eq_foldByte hW,
    rev_shiftSteps (by omega), rev_rev]
  rfl

/-- One byte of the fold is one byte of the bit-serial procedure, whose register is reversed when `refin`. -/
theorem foldByte_initializeRegister (hW : 8 ≤ W) (refin : Bool) (poly reg : BitVec W) (b : Byte) :
    foldByte refin (initializeRegister reg refin) b (tableEntry poly refin) =
      initializeRegister (msbSteps poly 8 (reg ^^^ topByte W (if refin then rev b else b))) refin := by
  cases refin with
  | false => exact foldByte_false_eq_msbSteps hW poly reg b
  | true =>
    have hbyte := rev_setWidth_rev hW (rev b)
    rw [rev_rev] at hbyte
    change foldByte true (rev reg) b _ = rev (msbSteps poly 8 (reg ^^^ topByte W (rev b)))
    rw [foldByte_true_eq_shiftSteps hW, ← rev_rev (shiftSteps _ _ _), rev_shiftSteps (by omega), rev_xor, rev_rev, hbyte]

theorem foldBytes_initializeRegister (hW : 8 ≤ W) (refin : Bool) (poly reg : BitVec W) (m : List Byte) :
    foldBytes refin (initializeRegister reg refin) m (tableEntry poly refin) =
      initializeRegister (bitSerialRegister poly refin m reg) refin := by
  induction m generalizing reg with
  | nil => rfl
  | cons b m ih => rw [foldBytes_cons, foldByte_initializeRegister hW, ih, bitSerialRegister]

theorem finalize_initializeRegister (refin refout : Bool) (xorout reg : BitVec W) :
    finalize refin refout xorout (initializeRegister reg refin) = (if refout then rev reg else reg) ^^^ xorout := by
  cases refin with
  | false => cases refout <;> rfl
  | true =>
    cases refout with
    | false => exact congrArg (· ^^^ xorout) (rev_rev reg)
    | true => rfl

theorem finalize_foldBytes_eq_bitSerialChecksum (hW : 8 ≤ W) (poly init : BitVec W) (refin refout : Bool)
    (xorout : BitVec W) (m : List Byte) :
    finalize refin refout xorout (foldBytes refin (initializeRegister init refin) m (tableEntry poly refin)) =
      bitSerialChecksum poly init refin refout xorout m := by
  rw [foldBytes_initializeRegister hW, finalize_initializeRegister]
  rfl

end Sys2Proof.Machine
end

section
/-! SUPPORT. A register folded into itself, byte by byte from the end where the fold takes bytes up, leaves 0: the
residue of a matched configuration (42_accumulator.md R166). -/

namespace Sys2Proof.Machine

variable {W : Nat}

/-- The end at which a fold takes up bytes is the end that a matched serialisation starts from. -/
def matchedEnd (refin : Bool) : ByteEnd := if refin then .little else .big

/-- A byte that meets itself in the register leaves nothing but the shift. -/
theorem foldByte_of_foldIndex_zero {refin : Bool} {r : BitVec W} {b : Byte} (h : foldIndex refin r b = 0)
    (poly : BitVec W) : foldByte refin r b (tableEntry poly refin) = if refin then r >>> 8 else r <<< 8 := by
  rw [foldByte, h, tableEntry_zero_index]
  cases refin <;> simp [foldStep]

theorem foldBytes_map_byteAt_little (hW : 8 ≤ W) (poly v : BitVec W) (n : Nat) :
    foldBytes true v ((List.range n).map fun k => byteAt v k) (tableEntry poly true) = v >>> (8 * n) := by
  induction n with
  | zero => simp
  | succ n ih =>
    have hindex : foldIndex true (v >>> (8 * n)) (byteAt v n) = 0 := by
      have hbyte := setWidth_ushiftRight_xor hW v (byteAt v n) (8 * n)
      rwa [← byteAt, BitVec.xor_self] at hbyte
    rw [List.range_succ, List.map_append, foldBytes_append, ih, List.map_singleton, foldBytes_cons, foldBytes_nil,
      foldByte_of_foldIndex_zero hindex, if_pos rfl, ← BitVec.shiftRight_add]
    rfl

theorem extractLsb'_top_shiftLeft (hW : 8 * numBytes W = W) (v : BitVec W) {n : Nat} (hn : n < numBytes W) :
    (v <<< (8 * n)).extractLsb' (W - 8) 8 = byteAt v (numBytes W - 1 - n) := by
  refine BitVec.eq_of_getLsbD_eq fun i hi => ?_
  have hlt : W - 8 + i < W := by omega
  have hge : ¬ W - 8 + i < 8 * n := by omega
  have hplace : W - 8 + i - 8 * n = 8 * (numBytes W - 1 - n) + i := by omega
  rw [getLsbD_byteAt v _ i hi, BitVec.getLsbD_extractLsb', BitVec.getLsbD_shiftLeft]
  simp [hi, hlt, hge, hplace]

theorem foldBytes_map_byteAt_big (hW : 8 * numBytes W = W) (poly v : BitVec W) {n : Nat} (hn : n ≤ numBytes W) :
    foldBytes false v ((List.range n).map fun k => byteAt v (numBytes W - 1 - k)) (tableEntry poly false) =
      v <<< (8 * n) := by
  induction n with
  | zero => simp
  | succ n ih =>
    have hindex : foldIndex false (v <<< (8 * n)) (byteAt v (numBytes W - 1 - n)) = 0 := by
      have hbyte := setWidth_ushiftRight_xor (by omega) (v <<< (8 * n)) (byteAt v (numBytes W - 1 - n)) (W - 8)
      rwa [extractLsb'_top_shiftLeft hW v hn, BitVec.xor_self] at hbyte
    rw [List.range_succ, List.map_append, foldBytes_append, ih (by omega), List.map_singleton, foldBytes_cons,
      foldBytes_nil, foldByte_of_foldIndex_zero hindex, if_neg Bool.false_ne_true, ← BitVec.shiftLeft_add]
    rfl

theorem foldBytes_bytesFrom_matchedEnd (w : Width) (refin : Bool) (poly v : Word w) :
    foldBytes refin v (bytesFrom v (matchedEnd refin)) (tableEntry poly refin) = 0#w.bits := by
  have hW := mul_numBytes_bits w
  cases refin with
  | false =>
    refine (foldBytes_map_byteAt_big hW poly v (Nat.le_refl _)).trans ?_
    rw [hW]
    exact BitVec.shiftLeft_eq_zero (Nat.le_refl _)
  | true =>
    refine (foldBytes_map_byteAt_little (eight_le_bits w) poly v (numBytes w.bits)).trans ?_
    rw [hW]
    exact BitVec.ushiftRight_eq_zero (Nat.le_refl _)

/-- The fold is linear with the bytes on one side (42_accumulator.md R142). -/
theorem foldBytes_xor_replicate (refin : Bool) (poly r r' : BitVec W) (m : List Byte) :
    foldBytes refin (r ^^^ r') m (tableEntry poly refin) =
      foldBytes refin r m (tableEntry poly refin) ^^^
        foldBytes refin r' (List.replicate m.length 0) (tableEntry poly refin) := by
  induction m generalizing r r' with
  | nil => rfl
  | cons b m ih =>
    have hbyte := foldByte_xor refin poly r r' b 0#8
    rw [BitVec.xor_zero] at hbyte
    rw [foldBytes_cons, hbyte, ih]
    rfl

/-- In a matched configuration the register cancels against its own serialised checksum, and `XOROUT` is left, folded
through zero bytes (42_accumulator.md R166). -/
theorem foldBytes_matched {w : Width} {n : ByteEnd} {order : Order} {refin : Bool}
    (he : effective n order = matchedEnd refin) (poly xorout r : Word w) :
    foldBytes refin r (toEndianBytes n (finalize refin refin xorout r) order) (tableEntry poly refin) =
      foldBytes refin xorout (List.replicate (numBytes w.bits) 0) (tableEntry poly refin) := by
  have hfinalize : finalize refin refin xorout r = r ^^^ xorout := by rw [finalize, reflectConditionally_self]
  have hsplit := foldBytes_xor_replicate refin poly (r ^^^ xorout) xorout (bytesFrom (r ^^^ xorout) (matchedEnd refin))
  rw [BitVec.xor_assoc, BitVec.xor_self, BitVec.xor_zero, foldBytes_bytesFrom_matchedEnd, BitVec.zero_xor,
    length_bytesFrom] at hsplit
  rw [toEndianBytes, he, hfinalize, hsplit]

end Sys2Proof.Machine
end

section
/-! SUPPORT. The composite operations one after the other: the codeword of a message, verified (42_accumulator.md R161 to
R167). -/

namespace Sys2Proof.Machine

variable {s : State} {order : Order}

theorem getLast?_answers_concat (s : State) (out : List (List Byte)) (r : List Byte) :
    (s.answers (out ++ [r])).responses.getLast? = some r := by
  rw [answers_responses, ← List.append_assoc, List.getLast?_concat]

theorem folded_append (s : State) (m c : List Byte) :
    s.folded (m ++ c) = foldBytes s.engine.refin (s.folded m) c (tableEntry s.engine.poly s.engine.refin) :=
  foldBytes_append _ _ _ _ _

theorem execComposite_checksum (hinv : s.Inv) (hc : s.configured = true) (m : List Byte) :
    execComposite (.checksum m) s =
      .next ((s.withReg (s.folded m)).answers (List.replicate (m.length + 1) [0x00] ++
        [0x01 :: wordBytes (finalize s.engine.refin s.engine.refout s.engine.xorout (s.folded m))])) := by
  refine execAll_init_map_update_concat hinv hc m ?_
  rintro t rfl
  exact exec_rdsum_of_configured hc

/-- What `CHECKSUMB m` returns: the serialised checksum of the message. -/
def State.checksumBytes (s : State) (order : Order) (m : List Byte) : List Byte :=
  toEndianBytes s.nativeOrder (finalize s.engine.refin s.engine.refout s.engine.xorout (s.folded m)) order

/-- `CHECKSUMB m` and then `VERIFYM` of the codeword: both run, and the second compares the register after the
codeword, whatever order the bytes are in. -/
theorem checksumb_verifym (hinv : s.Inv) (hc : s.configured = true) (ho : modeOrder s.engine.mode = some order)
    (m : List Byte) : ∃ t u, execComposite (.checksumb m) s = .next t ∧
      t.responses.getLast? = some (0x02 :: s.checksumBytes order m) ∧
      execComposite (.verifym (m ++ s.checksumBytes order m)) t = .next u ∧
      u.arch.reg = (s.folded (m ++ s.checksumBytes order m)).toNat ∧
      u.responses.getLast? = some [0x03,
        if reflectConditionally s.engine.refin s.engine.refout (s.folded (m ++ s.checksumBytes order m)) =
          s.engine.residue then 0x01 else 0x00] := by
  obtain ⟨hruns, -⟩ := checksumbAndVerifymOperations
  obtain ⟨-, rfl, hchecksumb, -⟩ := hruns s m order hinv hc ho
  obtain ⟨-, rfl, -, hverifym⟩ := hruns ((s.withReg (s.folded m)).answers (List.replicate (m.length + 1) [0x00] ++
    [0x02 :: s.checksumBytes order m])) (m ++ s.checksumBytes order m) order hinv hc ho
  exact ⟨_, _, hchecksumb, getLast?_answers_concat .., hverifym, rfl, getLast?_answers_concat ..⟩

theorem residueDerived_iff (ho : modeOrder s.engine.mode = some order) :
    s.residueDerived ↔ s.engine.residue = deriveResidue s.nativeOrder order s.engine.poly s.engine.init s.engine.refin
      s.engine.refout s.engine.xorout := by
  constructor
  · rintro ⟨order', ho', hres⟩
    obtain rfl := Option.some.inj (ho.symm.trans ho')
    exact hres
  · exact fun hres => ⟨order, ho, hres⟩

/-- The derived residue is the register after the empty message's codeword (41_table_generator.md R116, R117). -/
theorem reflectConditionally_folded_nil (s : State) (order : Order) :
    reflectConditionally s.engine.refin s.engine.refout (s.folded ([] ++ s.checksumBytes order [])) =
      deriveResidue s.nativeOrder order s.engine.poly s.engine.init s.engine.refin s.engine.refout s.engine.xorout := rfl

theorem matchedOrder_cases (h : s.matchedOrder) : ∃ order, modeOrder s.engine.mode = some order ∧
    s.engine.refout = s.engine.refin ∧ effective s.nativeOrder order = matchedEnd s.engine.refin := by
  obtain ⟨order, ho, ⟨hin, hout, he⟩ | ⟨hin, hout, he⟩⟩ := h
  · exact ⟨order, ho, hout.trans hin.symm, by rw [he, hin]; rfl⟩
  · exact ⟨order, ho, hout.trans hin.symm, by rw [he, hin]; rfl⟩

/-- In a matched configuration the register after a codeword depends on neither the message nor `INIT`. -/
theorem folded_codeword_of_matched (hout : s.engine.refout = s.engine.refin)
    (he : effective s.nativeOrder order = matchedEnd s.engine.refin) (m : List Byte) :
    s.folded (m ++ s.checksumBytes order m) =
      foldBytes s.engine.refin s.engine.xorout (List.replicate (numBytes s.width.bits) 0)
        (tableEntry s.engine.poly s.engine.refin) := by
  rw [folded_append, State.checksumBytes, hout]
  exact foldBytes_matched he s.engine.poly s.engine.xorout (s.folded m)

/-- So in a matched configuration every codeword passes the check exactly when the residue is the derived one. -/
theorem codeword_verifies_iff_of_matched (ho : modeOrder s.engine.mode = some order)
    (hout : s.engine.refout = s.engine.refin) (he : effective s.nativeOrder order = matchedEnd s.engine.refin)
    (m : List Byte) :
    reflectConditionally s.engine.refin s.engine.refout (s.folded (m ++ s.checksumBytes order m)) = s.engine.residue ↔
      s.residueDerived := by
  rw [residueDerived_iff ho, ← reflectConditionally_folded_nil, folded_codeword_of_matched hout he m,
    folded_codeword_of_matched hout he []]
  exact eq_comm

/-- What `CONFIG` with the parameters of CRC-32, both flags and the order `Big` leaves after reset: an unmatched
configuration with its derived residue (90_conflicts.md C1). -/
abbrev unmatched : State :=
  constructed (State.resetOf .w32 .big) 0x03 0x04C11DB7#32 0xFFFFFFFF#32 0xFFFFFFFF#32 0xDEBB20E3#32

theorem unmatched_inv : unmatched.Inv := inv_respond.2 (inv_installEngine rfl (by decide))

theorem deriveResidue_unmatched (e : ByteEnd) :
    deriveResidue e .big 0x04C11DB7#32 0xFFFFFFFF#32 true true 0xFFFFFFFF#32 = 0xDEBB20E3#32 := by
  change deriveResidue .big .big 0x04C11DB7#32 0xFFFFFFFF#32 true true 0xFFFFFFFF#32 = 0xDEBB20E3#32
  decide +kernel

theorem unmatched_residueDerived : unmatched.residueDerived :=
  (constructed_residueDerived_iff (f := ⟨true, true, .big⟩) (by decide)).2 (deriveResidue_unmatched .big).symm

theorem unmatched_codeword_fails :
    ¬ reflectConditionally unmatched.engine.refin unmatched.engine.refout
      (unmatched.folded (checkMessage ++ unmatched.checksumBytes .big checkMessage)) = unmatched.engine.residue := by
  decide +kernel

end Sys2Proof.Machine
end

section
/-! CERTIFICATES. The checksum as a CRC and the residue round trip (42_accumulator.md R145, R161, R166, R167). -/

namespace Sys2Proof.Machine

/-- Settles O51: `INIT` and the `UPDATE`s leave the fold of the message in `REG`, which `RDSUM` reads. -/
theorem checksumOperation : Obligations.ChecksumOperation := by
  unfold Obligations.ChecksumOperation
  exact ⟨fun s m hinv hc => ⟨s.folded m, rfl, execComposite_checksum hinv hc m⟩, fun _ => rfl, by decide +kernel,
    by decide +kernel, by decide +kernel⟩

/-- Settles O54: a table step is eight serial steps, on the register reversed when `REFIN` is set. -/
theorem checksumAgreesWithTheBitSerialCrc : Obligations.ChecksumAgreesWithTheBitSerialCrc := by
  unfold Obligations.ChecksumAgreesWithTheBitSerialCrc
  intro s m hinv hc
  refine ⟨_, execComposite_checksum hinv hc m, ?_⟩
  rw [getLast?_answers_concat, State.folded, finalize_foldBytes_eq_bitSerialChecksum (eight_le_bits s.width)]

/-- Settles O55: the register cancels against its own checksum, for the message as for the empty one. -/
theorem matchedResidueRoundTrip : Obligations.MatchedResidueRoundTrip := by
  unfold Obligations.MatchedResidueRoundTrip
  intro s m hinv hc hmatched
  obtain ⟨order, ho, hout, he⟩ := matchedOrder_cases hmatched
  obtain ⟨t, u, ht, hbytes, hu, hreg, hanswer⟩ := checksumb_verifym hinv hc ho m
  have hverifies := codeword_verifies_iff_of_matched ho hout he m
  refine ⟨t, u, s.checksumBytes order m, ht, length_toEndianBytes _ _ _, hbytes, hu, ?_, fun hres => ?_, fun hres => ?_⟩
  · rw [hreg, folded_codeword_of_matched hout he m]
    rfl
  · rw [hanswer, if_pos (hverifies.2 hres)]
  · rw [hanswer, if_neg (mt hverifies.1 hres)]

/-- Settles O56: the residue is derived as the register after the empty message's codeword. -/
theorem emptyMessageRoundTrip : Obligations.EmptyMessageRoundTrip := by
  unfold Obligations.EmptyMessageRoundTrip
  intro s hinv hc hres
  obtain ⟨order, ho, hresidue⟩ := hres
  obtain ⟨t, u, ht, hbytes, hu, -, hanswer⟩ := checksumb_verifym hinv hc ho []
  refine ⟨t, u, s.checksumBytes order [], ht, hbytes, hu, ?_⟩
  rw [hanswer, reflectConditionally_folded_nil, if_pos hresidue.symm]

/-- Settles O57: CRC-32 with both flags and the order `Big`, on the nine bytes of the check message. -/
theorem roundTripNeedsAMatchedOrder : Obligations.RoundTripNeedsAMatchedOrder := by
  unfold Obligations.RoundTripNeedsAMatchedOrder
  refine ⟨fun hall => ?_, fun e => ⟨?_, deriveResidue_unmatched e⟩, by decide +kernel⟩
  · have ho : modeOrder unmatched.engine.mode = some .big := by decide
    obtain ⟨t, u, ht, hbytes, hu, -, hanswer⟩ := checksumb_verifym unmatched_inv rfl ho checkMessage
    have htrue := hall _ t u checkMessage _ unmatched_inv rfl unmatched_residueDerived ht hbytes hu
    rw [hanswer, if_neg unmatched_codeword_fails] at htrue
    exact absurd htrue (by decide)
  · change bytesFrom 0xCBF43926#32 .big = [0xCB, 0xF4, 0x39, 0x26]
    decide +kernel

end Sys2Proof.Machine
end
